-- ==== Sys2Proof/Word.lean ====
section
/-! DEFINITION. The word: the one width of Memory, operands, queue elements and the ALU (00_scope.md R6, R7). -/

namespace Sys2Proof

/-- A 64-bit word, read as signed through `BitVec.toInt` (00_scope.md R7). -/
abbrev Word := BitVec 64

end Sys2Proof
end

