-- ==== Sys2Proof/Syntax.lean ====
section
/-! DEFINITION. The instruction set: one constructor per row of spec/opcode_table.json (30_encoding.md R59). -/

namespace Sys2Proof

/-- The addressing mode of a parameter, by its mode digit (30_encoding.md R56). -/
inductive Mode where
  /-- Digit 0: the parameter word is an address. -/
  | position
  /-- Digit 1: the parameter word is the operand. -/
  | immediate
  /-- A digit 2 to 9, which has no mode: an instruction that holds one is decoded and faults when it is resolved. -/
  | other (digit : Nat)
  deriving DecidableEq, Repr

/-- A parameter as the instruction carries it: its mode `M[k]` and its raw word `P[k]` (00_scope.md R10). -/
structure Param where
  mode : Mode
  word : Word
  deriving DecidableEq, Repr

/-- The nine instructions, with their parameters in order (30_encoding.md R58, R59). -/
inductive Instr where
  | add (a b dst : Param)
  | multiply (a b dst : Param)
  | input (dst : Param)
  | output (a : Param)
  | jumpIfTrue (a target : Param)
  | jumpIfFalse (a target : Param)
  | lessThan (a b dst : Param)
  | equals (a b dst : Param)
  | halt
  deriving DecidableEq, Repr

end Sys2Proof
end

