-- ==== Sys2Proof/WellFormed.lean ====
section
/-! DEFINITION. Which terms of `Instr` an instruction word can encode: a parameter's mode is a decimal digit, written
in one way only (30_encoding.md R52, R56). Every parameter word is a whole word and needs no check (R57). -/

namespace Sys2Proof

/-- `position` is digit 0 and `immediate` is digit 1, so `other` holds a digit 2 to 9. -/
def Mode.wf : Mode → Bool
  | .position => true
  | .immediate => true
  | .other d => decide (2 ≤ d) && decide (d ≤ 9)

def Param.wf (p : Param) : Bool := p.mode.wf

def Instr.wf : Instr → Bool
  | .add a b dst => a.wf && b.wf && dst.wf
  | .multiply a b dst => a.wf && b.wf && dst.wf
  | .input dst => dst.wf
  | .output a => a.wf
  | .jumpIfTrue a target => a.wf && target.wf
  | .jumpIfFalse a target => a.wf && target.wf
  | .lessThan a b dst => a.wf && b.wf && dst.wf
  | .equals a b dst => a.wf && b.wf && dst.wf
  | .halt => true

end Sys2Proof
end

