-- ==== Sys2Proof/Decode.lean ====
section
/-! DEFINITION. The Decoder (30_encoding.md R51 to R63), total on any list of words, and after it the encoder, from
the same tables. Fields are decimal digits of the instruction word (R52). -/

namespace Sys2Proof

/-- The operation selector of an instruction word (30_encoding.md R59). -/
inductive Opcode where
  | add | multiply | input | output | jumpIfTrue | jumpIfFalse | lessThan | equals | halt
  deriving DecidableEq, Repr

/-- Why a list of words is no instruction. -/
inductive DecodeError where
  /-- There is no instruction word (the instruction pointer is outside Memory, 40_execution-cycle.md R71). -/
  | noWord
  /-- The instruction word is negative or its opcode is not in the table (30_encoding.md R54, R62). -/
  | unknownOpcode (ir : Word)
  /-- Parameter word `k` is the first that is missing (40_execution-cycle.md R73). -/
  | missingParam (k : Nat)
  deriving DecidableEq, Repr

/-- `IR mod 100` of each instruction: the opcode map of 30_encoding.md R59. -/
def Opcode.code : Opcode → Nat
  | .add => 1
  | .multiply => 2
  | .input => 3
  | .output => 4
  | .jumpIfTrue => 5
  | .jumpIfFalse => 6
  | .lessThan => 7
  | .equals => 8
  | .halt => 99

/-- The rows of the opcode map. -/
def Opcode.table : List Opcode :=
  [.add, .multiply, .input, .output, .jumpIfTrue, .jumpIfFalse, .lessThan, .equals, .halt]

def Opcode.ofCode (n : Nat) : Option Opcode := Opcode.table.find? (fun op => op.code == n)

/-- `NPARAMS(op)` (40_execution-cycle.md R72). -/
def Opcode.numParams : Opcode → Nat
  | .add => 3
  | .multiply => 3
  | .input => 1
  | .output => 1
  | .jumpIfTrue => 2
  | .jumpIfFalse => 2
  | .lessThan => 3
  | .equals => 3
  | .halt => 0

/-- `digit(w, j)`, the `10^j`-place decimal digit of a non-negative word (00_scope.md R8). -/
def digit (w j : Nat) : Nat := w / 10 ^ j % 10

/-- The mode a mode digit selects (30_encoding.md R56). -/
def Mode.ofDigit (d : Nat) : Mode :=
  if d = 0 then .position else if d = 1 then .immediate else .other d

def Mode.digit : Mode → Nat
  | .position => 0
  | .immediate => 1
  | .other d => d

/-- `M[k]`: the hundreds digit for parameter 1, the thousands for 2, the ten-thousands for 3 (30_encoding.md R52). -/
def modeOf (ir : Word) (k : Nat) : Mode := Mode.ofDigit (Sys2Proof.digit ir.toNat (k + 1))

/-- The opcode of an instruction word; a negative word has none (30_encoding.md R53, R54, R62). -/
def decodeOpcode (ir : Word) : Option Opcode :=
  if ir.toInt < 0 then none else Opcode.ofCode (ir.toNat % 100)

/-- Format F3 (30_encoding.md R58): three parameter words. -/
def needThree (mk : Param → Param → Param → Instr) (ir : Word) : List Word → Except DecodeError Instr
  | p1 :: p2 :: p3 :: _ => .ok (mk ⟨modeOf ir 1, p1⟩ ⟨modeOf ir 2, p2⟩ ⟨modeOf ir 3, p3⟩)
  | ps => .error (.missingParam (ps.length + 1))

/-- Format F2: two parameter words. -/
def needTwo (mk : Param → Param → Instr) (ir : Word) : List Word → Except DecodeError Instr
  | p1 :: p2 :: _ => .ok (mk ⟨modeOf ir 1, p1⟩ ⟨modeOf ir 2, p2⟩)
  | ps => .error (.missingParam (ps.length + 1))

/-- Formats F1D and F1S: one parameter word. -/
def needOne (mk : Param → Instr) (ir : Word) : List Word → Except DecodeError Instr
  | p1 :: _ => .ok (mk ⟨modeOf ir 1, p1⟩)
  | [] => .error (.missingParam 1)

/-- The instruction of an opcode over the parameter words that follow. Only the digits of parameters the opcode has
are read (30_encoding.md R55). -/
def decodeParams (ir : Word) (ps : List Word) : Opcode → Except DecodeError Instr
  | .add => needThree .add ir ps
  | .multiply => needThree .multiply ir ps
  | .input => needOne .input ir ps
  | .output => needOne .output ir ps
  | .jumpIfTrue => needTwo .jumpIfTrue ir ps
  | .jumpIfFalse => needTwo .jumpIfFalse ir ps
  | .lessThan => needThree .lessThan ir ps
  | .equals => needThree .equals ir ps
  | .halt => .ok .halt

/-- The instruction that starts a list of words. Words after the instruction's own are not read: its length is fixed
by its opcode (30_encoding.md R61). -/
def decode : List Word → Except DecodeError Instr
  | [] => .error .noWord
  | ir :: ps =>
    match decodeOpcode ir with
    | none => .error (.unknownOpcode ir)
    | some op => decodeParams ir ps op

/-- The words of the longest instruction (30_encoding.md R61). -/
def maxWidth : Nat := 4

def Instr.opcode : Instr → Opcode
  | .add _ _ _ => .add
  | .multiply _ _ _ => .multiply
  | .input _ => .input
  | .output _ => .output
  | .jumpIfTrue _ _ => .jumpIfTrue
  | .jumpIfFalse _ _ => .jumpIfFalse
  | .lessThan _ _ _ => .lessThan
  | .equals _ _ _ => .equals
  | .halt => .halt

/-- The parameters in order. -/
def Instr.params : Instr → List Param
  | .add a b dst => [a, b, dst]
  | .multiply a b dst => [a, b, dst]
  | .input dst => [dst]
  | .output a => [a]
  | .jumpIfTrue a target => [a, target]
  | .jumpIfFalse a target => [a, target]
  | .lessThan a b dst => [a, b, dst]
  | .equals a b dst => [a, b, dst]
  | .halt => []

/-- The width in words: `1 + n` (30_encoding.md R51). -/
def Instr.width (i : Instr) : Nat := 1 + i.params.length

/-- The mode digits as one number, parameter 1 lowest. -/
def modeDigits : List Param → Nat
  | [] => 0
  | p :: ps => p.mode.digit + 10 * modeDigits ps

/-- `IR = opcode + 100*M[1] + 1000*M[2] + 10000*M[3]`, modes of absent parameters 0 (30_encoding.md R60, R64). -/
def encodeHead (i : Instr) : Word := BitVec.ofNat 64 (i.opcode.code + 100 * modeDigits i.params)

/-- The words of an instruction: its instruction word, then its parameter words in order (30_encoding.md R51). -/
def encode (i : Instr) : List Word := encodeHead i :: i.params.map Param.word

/-- The words of the longest instruction, from the number whose bits 63..0 are the first word, 127..64 the second and
so on; bits from `nbits` up are 0 (log 14). -/
def tableWords (nbits w : Nat) : List Word :=
  let v := w % 2 ^ nbits
  [BitVec.ofNat 64 v, BitVec.ofNat 64 (v / 2 ^ 64), BitVec.ofNat 64 (v / 2 ^ 128), BitVec.ofNat 64 (v / 2 ^ 192)]

/-- The instruction the decoder reads from the words numbered as spec/opcode_table.json numbers their bits. -/
def decodeTableWord (nbits w : Nat) : Option Instr :=
  match decode (tableWords nbits w) with
  | .ok i => some i
  | .error _ => none

end Sys2Proof
end

