-- ==== Sys2Proof/Config.lean ====
section
/-! DEFINITION. The implementation parameters the spec leaves open (00_scope.md R6). They are plain data carried in
State (log 4), so that every statement holds for every value of them. The spec leaves no instruction's result open,
so there is no free value here. -/

namespace Sys2Proof

/-- The open capacities. `none` is unbounded, the spec's default for the queues and allowed for the Memory. -/
structure Config where
  /-- `MEM_WORDS`, the largest `L` an Engine accepts (00_scope.md R6). -/
  memWords : Option Nat
  /-- `IQ_DEPTH`, the capacity of the input queue (20_memory.md R50). -/
  iqDepth  : Option Nat
  /-- `OQ_DEPTH`, the capacity of the output queue (20_memory.md R50). -/
  oqDepth  : Option Nat
  deriving DecidableEq, Repr

/-- Every capacity unbounded: the default of 00_scope.md R6. -/
def Config.unbounded : Config := ⟨none, none, none⟩

end Sys2Proof
end

