-- ==== Sys2Proof/Machine/State.lean ====
section
/-! DEFINITION. The state of the block as plain data: the Engine in focus, the other Engines of the ring, the
Orchestrator's registers and the open parameters (10_state.md R13, R30, R31; INVENTORY.md, State). -/

namespace Sys2Proof.Machine

/-- `MEM` and `L` (10_state.md R15, R16). `cells` lists the words that are not 0, by index, in the canonical form
`Memory.wf` states; the other words below `len` are 0 (log 3). -/
structure Memory where
  /-- `L`, fixed by `load` (10_state.md R16). -/
  len   : Nat
  cells : List (Nat × Word)
  deriving DecidableEq, Repr

/-- `ST` (10_state.md R22). -/
inductive ExecState where
  | running
  | blocked
  | halted
  | faulted
  deriving DecidableEq, Repr

/-- `FC` (60_exceptions.md R118). -/
inductive FaultCode where
  | none
  | unknownOpcode
  | outOfBounds
  | missingDestination
  | invalidMode
  | queueOverflow
  deriving DecidableEq, Repr

/-- What one Engine holds (10_state.md R13). -/
structure Engine where
  /-- `MEM` with `L`. -/
  mem : Memory
  /-- `IP`, an index `0 <= IP <= L` (10_state.md R17). -/
  ip  : Nat
  /-- `IQ`, head first (10_state.md R20). -/
  iq  : List Word
  /-- `OQ`, head first (10_state.md R20). -/
  oq  : List Word
  /-- `ST` (10_state.md R22). -/
  st  : ExecState
  /-- `FC` (10_state.md R23). -/
  fc  : FaultCode
  /-- `FI` (10_state.md R24). -/
  fi  : Word
  deriving DecidableEq, Repr

/-- `PST` (10_state.md R30). -/
inductive PipeStatus where
  | idle
  | running
  | done
  | aborted
  deriving DecidableEq, Repr

/-- The block. `E[0] .. E[N-1]` is `before ++ eng :: after`, so `CUR` is the length of `before` (log 15). Outside a run
of the ring `eng` is the Engine its host drives and the others are that host's other Engines (60_exceptions.md R134). -/
structure State where
  /-- The open parameters (00_scope.md R6; log 4). -/
  cfg        : Config
  /-- The stages before the current one, stage 0 first. -/
  before     : List Engine
  /-- The current stage `E[CUR]`: the one Engine that may execute (47_orchestrator.md R114). -/
  eng        : Engine
  /-- The stages after the current one. -/
  after      : List Engine
  /-- `PST` (10_state.md R30). -/
  pst        : PipeStatus
  /-- `RESULT`; `none` is NoResult (10_state.md R30). -/
  result     : Option Word
  /-- `ABORT_STAGE` (10_state.md R30). -/
  abortStage : Nat
  /-- `ABORT_FC` (10_state.md R30). -/
  abortFc    : FaultCode
  /-- `ABORT_FI` (10_state.md R30). -/
  abortFi    : Word
  deriving DecidableEq, Repr

/-- The machine never stops with a fault of this interface: a fault of the spec is an entry it describes, a next state
whose `ST` is `faulted` (60_exceptions.md R125). So there is no constructor (log 21). -/
inductive Fault where
  deriving DecidableEq, Repr

/-- Requests that are turned away. No instruction's meaning raises one. -/
inductive Refusal where
  /-- Raised by an arm of `exec` for an instruction without a meaning: none is left. Safe: nothing is claimed of it. -/
  | notModelled (mnemonic : String)
  /-- Raised by `load` of an image longer than `MEM_WORDS` (46_host-interface.md R97). Safe: no Engine is built. -/
  | imageTooLarge
  /-- Raised by a host `write` to an `IQ` that holds `IQ_DEPTH` values (20_memory.md R50). Safe: nothing changes. -/
  | inputQueueFull
  /-- Raised by `peek_memory` and `poke_memory` outside `0 .. L-1`, the host's error OutOfBounds
  (46_host-interface.md R101, R102). Safe: nothing changes. -/
  | addressOutOfBounds
  /-- Raised by a pipeline run with no phases (47_orchestrator.md R107). Safe: no run is started. -/
  | noStages
  /-- Raised by a step whose relay finds the next stage's finite `IQ` full, of which the spec says only that it must be
  made visible (20_memory.md R50; log 7). Safe: the step stops where hardware may go on. -/
  | relayQueueFull
  /-- Raised by a host request while the Orchestrator runs the ring (47_orchestrator.md R114; log 11). Safe: nothing
  changes. -/
  | pipelineRunning
  /-- Raised by a host request that names an Engine the host does not hold (log 17). Safe: nothing changes. -/
  | noSuchEngine
  deriving DecidableEq, Repr

/-- An Engine after `load` of the empty image (10_state.md R16, R31). -/
def Engine.reset : Engine where
  mem := ⟨0, []⟩
  ip := 0
  iq := []
  oq := []
  st := .running
  fc := .none
  fi := 0

/-- The machine right after reset: one Engine after `load` of the empty image, no run of the ring (10_state.md R31;
log 1). The `ABORT` registers have no value the spec states (log 9). -/
def State.reset : State where
  cfg := Config.unbounded
  before := []
  eng := Engine.reset
  after := []
  pst := .idle
  result := none
  abortStage := 0
  abortFc := .none
  abortFi := 0

end Sys2Proof.Machine
end

