-- ==== Sys2Proof/Machine/Ops.lean ====
section
/-! DEFINITION. The named operations over Memory, the queues and the Engine: the address decoder, reads and writes, the
queue primitives, the fetch, and the one fault entry. -/

namespace Sys2Proof.Machine

/-! ### Memory -/

/-- What an index below `L` that `cells` does not list holds. Every word of Memory is given by `load`, so this is how a
word 0 is written down, not a choice (log 3). -/
def Memory.blank : Word := 0

def cellsGet : List (Nat × Word) → Nat → Word
  | [], _ => Memory.blank
  | (b, w) :: cs, a => if b = a then w else cellsGet cs a

/-- The cells without an entry for an index. -/
def cellsErase (a : Nat) : List (Nat × Word) → List (Nat × Word)
  | [] => []
  | (b, w) :: cs => if b = a then cellsErase a cs else (b, w) :: cellsErase a cs

/-- An entry put before the first higher index. -/
def cellsInsert (a : Nat) (v : Word) : List (Nat × Word) → List (Nat × Word)
  | [] => [(a, v)]
  | (b, w) :: cs => if a < b then (a, v) :: (b, w) :: cs else (b, w) :: cellsInsert a v cs

/-- The cells with the word at an index replaced. Writing the blank word removes the entry, so that equal memories are
equal lists. -/
def cellsSet (a : Nat) (v : Word) (cs : List (Nat × Word)) : List (Nat × Word) :=
  if v = Memory.blank then cellsErase a cs else cellsInsert a v (cellsErase a cs)

/-- Indices strictly rising from `lo`, all below `len`, no blank word. -/
def cellsWf (len : Nat) : Nat → List (Nat × Word) → Bool
  | _, [] => true
  | lo, (a, w) :: cs => decide (lo ≤ a) && decide (a < len) && decide (w ≠ Memory.blank) && cellsWf len (a + 1) cs

/-- The canonical form of a Memory. -/
def Memory.wf (m : Memory) : Bool := cellsWf m.len 0 m.cells

def cellsOfImage : Nat → List Word → List (Nat × Word)
  | _, [] => []
  | a, w :: ws => if w = Memory.blank then cellsOfImage (a + 1) ws else (a, w) :: cellsOfImage (a + 1) ws

/-- The Memory that `load` builds: a copy of the image (46_host-interface.md R97). -/
def Memory.ofImage (image : List Word) : Memory := ⟨image.length, cellsOfImage 0 image⟩

/-- `InRange(a)`, the address decoder: exactly `0 <= a < L`, nothing reduced or truncated first (20_memory.md R33). -/
def Memory.inRange (m : Memory) (a : Int) : Bool := decide (0 ≤ a) && decide (a < (m.len : Int))

/-- The whole word at an index, if there is one (20_memory.md R34). -/
def Memory.read (m : Memory) (a : Int) : Option Word :=
  if m.inRange a then some (cellsGet m.cells a.toNat) else none

/-- Replace the whole word at an index, if there is one (20_memory.md R35). -/
def Memory.write (m : Memory) (a : Int) (v : Word) : Option Memory :=
  if m.inRange a then some { m with cells := cellsSet a.toNat v m.cells } else none

/-- The words from index `a` on, at most `n` of them, up to the end of Memory. -/
def Memory.wordsFrom (m : Memory) : Nat → Nat → List Word
  | _, 0 => []
  | a, n + 1 => if a < m.len then cellsGet m.cells a :: m.wordsFrom (a + 1) n else []

/-- The image a Memory holds now: all of its words in order. -/
def Memory.image (m : Memory) : List Word := m.wordsFrom 0 m.len

/-- A Memory of at least `n` words, the new ones 0. Not an operation of the hardware: only `withFetchWord`, which stands
for the host's load of a program, uses it (log 1). -/
def Memory.extend (m : Memory) (n : Nat) : Memory := { m with len := max m.len n }

/-- Words placed from index `a` on; like `extend`, for `withFetchWord` only. -/
def Memory.place (m : Memory) : Nat → List Word → Memory
  | _, [] => m
  | a, w :: ws => ({ m with cells := cellsSet a w m.cells } : Memory).place (a + 1) ws

/-! ### Faults -/

/-- What a fault records: its code and its information (10_state.md R23, R24). -/
structure FaultInfo where
  code : FaultCode
  info : Word
  deriving DecidableEq, Repr

/-- `OutOfBounds` with `FI` the failing index as a signed word (60_exceptions.md R118, R120). -/
def outOfBoundsAt (a : Int) : FaultInfo := ⟨.outOfBounds, BitVec.ofInt 64 a⟩

/-- Fault entry: `ST <- Faulted`, `FC <- code`, `FI <- info`, and nothing else (60_exceptions.md R125). There is no
return from a fault (R126), so no operation stands beside this one. -/
def Engine.takeFault (e : Engine) (f : FaultInfo) : Engine :=
  { e with st := .faulted, fc := f.code, fi := f.info }

/-- `MemRead(a, 1)` (20_memory.md R34). -/
def memRead (m : Memory) (a : Int) : Except FaultInfo Word :=
  match m.read a with
  | some w => .ok w
  | none => .error (outOfBoundsAt a)

/-- `MemWrite(a, 1, v)` (20_memory.md R35). -/
def memWrite (m : Memory) (a : Int) (v : Word) : Except FaultInfo Memory :=
  match m.write a v with
  | some m' => .ok m'
  | none => .error (outOfBoundsAt a)

/-- The code of `ST` (10_state.md R22). -/
def ExecState.code : ExecState → BitVec 2
  | .running => 0
  | .blocked => 1
  | .halted => 2
  | .faulted => 3

/-- The code of `FC` (60_exceptions.md R118). -/
def FaultCode.code : FaultCode → BitVec 3
  | .none => 0
  | .unknownOpcode => 1
  | .outOfBounds => 2
  | .missingDestination => 3
  | .invalidMode => 4
  | .queueOverflow => 5

/-! ### Queues (20_memory.md R46) -/

/-- `Enqueue(Q, v)`: append at the tail. -/
def enqueue (q : List Word) (v : Word) : List Word := q ++ [v]

/-- `Dequeue(Q)`: the head and the rest; `none` when the queue is empty. -/
def dequeue : List Word → Option (Word × List Word)
  | [] => none
  | v :: q => some (v, q)

/-- `Tail(Q)`: the most recently appended element; `none` when the queue is empty. -/
def queueTail (q : List Word) : Option Word := q.getLast?

/-- A queue of a finite depth is full when it holds that many values; an unbounded one never is (20_memory.md R50;
log 16). -/
def queueFull (depth : Option Nat) (q : List Word) : Bool :=
  match depth with
  | none => false
  | some d => decide (d ≤ q.length)

/-- Whether a length is within an open capacity (00_scope.md R6). -/
def fits (capacity : Option Nat) (n : Nat) : Bool :=
  match capacity with
  | none => true
  | some c => decide (n ≤ c)

/-! ### The Engine -/

/-- `Advance()`: `IP <- IP + width` (40_execution-cycle.md R77). -/
def Engine.advance (e : Engine) (width : Nat) : Engine := { e with ip := e.ip + width }

/-- `Jump(t)`: a taken jump's target is checked against `0 .. L` before `IP` is written (43_control.md R88). -/
def Engine.jump (e : Engine) (t : Word) : Except FaultInfo Engine :=
  if t.toInt < 0 ∨ (e.mem.len : Int) < t.toInt then .error (outOfBoundsAt t.toInt)
  else .ok { e with ip := t.toInt.toNat }

/-- The instruction word and up to three words after it, as far as Memory goes. -/
def Engine.window (e : Engine) : List Word := e.mem.wordsFrom e.ip maxWidth

/-- Fetch, decode and parameter fetch: the instruction at `IP`, or the fault of the first stage that fails, in this
order: `IP` outside Memory, no such opcode, a parameter word outside Memory (40_execution-cycle.md R71, R72, R73). -/
def Engine.fetch (e : Engine) : Except FaultInfo Instr :=
  match decode e.window with
  | .ok i => .ok i
  | .error .noWord => .error (outOfBoundsAt e.ip)
  | .error (.unknownOpcode ir) => .error ⟨.unknownOpcode, ir⟩
  | .error (.missingParam k) => .error (outOfBoundsAt (e.ip + k : Nat))

/-- The start of an `execute()` call from Running or Blocked: `ST <- Running` (40_execution-cycle.md R66). -/
def Engine.begin (e : Engine) : Engine := { e with st := .running }

/-! ### The block -/

/-- The state with the current Engine replaced; no other Engine and no Orchestrator register changes (10_state.md
R29). -/
def State.withEngine (s : State) (e : Engine) : State := { s with eng := e }

/-- Fault entry of the current Engine. -/
def State.takeFault (s : State) (f : FaultInfo) : State := s.withEngine (s.eng.takeFault f)

/-- The end of an instruction: its effect as one whole, or its fault with none of the effect (40_execution-cycle.md
R78). -/
def State.retire (s : State) (r : Except FaultInfo Engine) : Host.Outcome State Fault Refusal :=
  match r with
  | .ok e => .next (s.withEngine e)
  | .error f => .next (s.takeFault f)

/-- The stages of the ring in order (10_state.md R30; log 15). -/
def State.stages (s : State) : List Engine := s.before ++ s.eng :: s.after

/-- `N` (10_state.md R30). -/
def State.numStages (s : State) : Nat := s.before.length + 1 + s.after.length

/-- `CUR` (10_state.md R30). -/
def State.cur (s : State) : Nat := s.before.length

end Sys2Proof.Machine
end

