-- ==== Sys2Proof/Machine/Flags.lean ====
section
/-! DEFINITION. The ALU and the truth values. The Engine has no flags (10_state.md R21): a comparison's result is the
word 1 or 0, and a jump tests a word against zero. -/

namespace Sys2Proof.Machine

/-- `wrap64`, the unique word congruent to `x` modulo `2^64` (00_scope.md R7). -/
def wrap64 (x : Int) : Word := BitVec.ofInt 64 x

/-- The exact sum reduced to 64 bits; overflow sets nothing and raises nothing (41_arithmetic.md R82). -/
def aluAdd (x y : Word) : Word := wrap64 (x.toInt + y.toInt)

/-- The exact product reduced to 64 bits (41_arithmetic.md R82). -/
def aluMul (x y : Word) : Word := wrap64 (x.toInt * y.toInt)

/-- Booleans written into Memory are the words 1 and 0 (00_scope.md R7). -/
def boolWord (b : Bool) : Word := if b then 1 else 0

/-- The signed order, as a word (44_compare.md R91). -/
def aluLess (x y : Word) : Word := boolWord (decide (x.toInt < y.toInt))

/-- Equality of the two words, as a word (44_compare.md R91). -/
def aluEqual (x y : Word) : Word := boolWord (decide (x = y))

/-- The condition of jump-if-true: any non-zero word, negative ones included (43_control.md R89). -/
def wordIsTrue (x : Word) : Bool := decide (x ≠ 0)

/-- The condition of jump-if-false: only the word 0 (43_control.md R90). -/
def wordIsFalse (x : Word) : Bool := decide (x = 0)

end Sys2Proof.Machine
end

