-- ==== Sys2Proof/Machine/Operands.lean ====
section
/-! DEFINITION. Operand resolution (40_execution-cycle.md R74 to R76): each parameter in order, mode check, then bounds
check, then read, and all of them before the effect, whether the instruction uses the value or not. -/

namespace Sys2Proof.Machine

/-- `val(k)` (40_execution-cycle.md R74). -/
def val (m : Memory) (k : Nat) (p : Param) : Except FaultInfo Word :=
  match p.mode with
  | .position => memRead m p.word.toInt
  | .immediate => .ok p.word
  | .other _ => .error ⟨.invalidMode, BitVec.ofNat 64 k⟩

/-- The check that a destination word is an index of Memory. -/
def dstAddress (m : Memory) (w : Word) : Except FaultInfo Int :=
  if m.inRange w.toInt then .ok w.toInt else .error (outOfBoundsAt w.toInt)

/-- `dst(k)`: an absolute write address under mode digits 0 and 1 alike (40_execution-cycle.md R75; 90_conflicts.md
C1). -/
def dst (m : Memory) (k : Nat) (p : Param) : Except FaultInfo Int :=
  match p.mode with
  | .position => dstAddress m p.word
  | .immediate => dstAddress m p.word
  | .other _ => .error ⟨.missingDestination, BitVec.ofNat 64 k⟩

/-- `Resolve()` for format F3: two sources and a destination. -/
def resolveThree (m : Memory) (a b d : Param) : Except FaultInfo (Word × Word × Int) :=
  match val m 1 a with
  | .error f => .error f
  | .ok x =>
    match val m 2 b with
    | .error f => .error f
    | .ok y =>
      match dst m 3 d with
      | .error f => .error f
      | .ok t => .ok (x, y, t)

/-- `Resolve()` for format F2: a condition and a target. -/
def resolveTwo (m : Memory) (a target : Param) : Except FaultInfo (Word × Word) :=
  match val m 1 a with
  | .error f => .error f
  | .ok x =>
    match val m 2 target with
    | .error f => .error f
    | .ok t => .ok (x, t)

/-- `MemWrite(A, 1, v)` and `Advance()`: the effect of an instruction that stores one word. -/
def Engine.store (e : Engine) (t : Int) (v : Word) (width : Nat) : Except FaultInfo Engine :=
  match memWrite e.mem t v with
  | .error f => .error f
  | .ok m => .ok (({ e with mem := m } : Engine).advance width)

/-- An instruction of format F3: resolve, then store what the ALU gives. -/
def threeOperand (f : Word → Word → Word) (a b d : Param) (e : Engine) : Except FaultInfo Engine :=
  match resolveThree e.mem a b d with
  | .error g => .error g
  | .ok (x, y, t) => e.store t (f x y) 4

/-- An instruction of format F2: resolve, then jump if the condition holds, else advance. -/
def conditionalJump (cond : Word → Bool) (a target : Param) (e : Engine) : Except FaultInfo Engine :=
  match resolveTwo e.mem a target with
  | .error f => .error f
  | .ok (x, t) => if cond x then e.jump t else .ok (e.advance 3)

end Sys2Proof.Machine
end

