-- ==== Sys2Proof/Machine/Arithmetic.lean ====
section
/-! DEFINITION. add and multiply (41_arithmetic.md). -/

namespace Sys2Proof.Machine

/-- add, `mem[dst] = val(a) + val(b)` (41_arithmetic.md R83). -/
def execAdd (a b d : Param) (s : State) : Host.Outcome State Fault Refusal :=
  s.retire (threeOperand aluAdd a b d s.eng)

/-- multiply, `mem[dst] = val(a) * val(b)` (41_arithmetic.md R84). -/
def execMultiply (a b d : Param) (s : State) : Host.Outcome State Fault Refusal :=
  s.retire (threeOperand aluMul a b d s.eng)

end Sys2Proof.Machine
end

