-- ==== Sys2Proof/Machine/Compare.lean ====
section
/-! DEFINITION. less-than and equals (44_compare.md). -/

namespace Sys2Proof.Machine

/-- less-than, `mem[dst] = 1 if val(a) < val(b) else 0` (44_compare.md R92). -/
def execLessThan (a b d : Param) (s : State) : Host.Outcome State Fault Refusal :=
  s.retire (threeOperand aluLess a b d s.eng)

/-- equals, `mem[dst] = 1 if val(a) == val(b) else 0` (44_compare.md R93). -/
def execEquals (a b d : Param) (s : State) : Host.Outcome State Fault Refusal :=
  s.retire (threeOperand aluEqual a b d s.eng)

end Sys2Proof.Machine
end

