-- ==== Sys2Proof/Machine/Control.lean ====
section
/-! DEFINITION. jump-if-true, jump-if-false (43_control.md) and halt (45_halt.md). -/

namespace Sys2Proof.Machine

/-- jump-if-true, "if `val(a) != 0`, `ip = val(target)`, else advance normally" (43_control.md R89). -/
def execJumpIfTrue (a target : Param) (s : State) : Host.Outcome State Fault Refusal :=
  s.retire (conditionalJump wordIsTrue a target s.eng)

/-- jump-if-false, "if `val(a) == 0`, `ip = val(target)`, else advance normally" (43_control.md R90). -/
def execJumpIfFalse (a target : Param) (s : State) : Host.Outcome State Fault Refusal :=
  s.retire (conditionalJump wordIsFalse a target s.eng)

/-- halt, "stop; state = `Halted`": `IP` stays at the halt and nothing else changes (45_halt.md R94). -/
def execHalt (s : State) : Host.Outcome State Fault Refusal :=
  s.retire (.ok { s.eng with st := .halted })

end Sys2Proof.Machine
end

