-- ==== Sys2Proof/Machine/InputOutput.lean ====
section
/-! DEFINITION. input and output (42_io.md). -/

namespace Sys2Proof.Machine

/-- `Perform(3)` after its destination is resolved: the head of `IQ` goes to Memory, or the Engine is Blocked with
nothing changed (42_io.md R85). -/
def Engine.inputTo (e : Engine) (t : Int) : Except FaultInfo Engine :=
  match dequeue e.iq with
  | none => .ok { e with st := .blocked }
  | some (v, q) => ({ e with iq := q } : Engine).store t v 2

/-- `Perform(4)` after its source is resolved; only a finite `OQ_DEPTH` can make it fault (42_io.md R86;
60_exceptions.md R123). -/
def Engine.outputOf (e : Engine) (depth : Option Nat) (v : Word) : Except FaultInfo Engine :=
  if queueFull depth e.oq then .error ⟨.queueOverflow, v⟩
  else .ok (({ e with oq := enqueue e.oq v } : Engine).advance 2)

/-- input, `mem[dst] = dequeue(input)`; a fault of the destination comes before Blocked (42_io.md R85;
40_execution-cycle.md R79). -/
def execInput (d : Param) (s : State) : Host.Outcome State Fault Refusal :=
  s.retire (match dst s.eng.mem 1 d with
    | .error f => .error f
    | .ok t => s.eng.inputTo t)

/-- output, `enqueue(output, val(a))` (42_io.md R86). -/
def execOutput (a : Param) (s : State) : Host.Outcome State Fault Refusal :=
  s.retire (match val s.eng.mem 1 a with
    | .error f => .error f
    | .ok v => s.eng.outputOf s.cfg.oqDepth v)

end Sys2Proof.Machine
end

