-- ==== Sys2Proof/Machine/Cycle.lean ====
section
/-! DEFINITION. `Step()` and the head of `execute()` (40_execution-cycle.md R66, R70). -/

namespace Sys2Proof.Machine

/-- `Step()`: fetch, decode and parameter fetch, then the instruction; a fault of an earlier stage ends it
(40_execution-cycle.md R70). -/
def runInstr (s : State) : Host.Outcome State Fault Refusal :=
  match s.eng.fetch with
  | .ok i => exec i s
  | .error f => .next (s.takeFault f)

/-- One step of an `execute()` call of the current Engine. From Running or Blocked it is one `Step()` with `ST`
Running; an Engine that is Halted or Faulted does not fetch and nothing changes (40_execution-cycle.md R66). -/
def executeStep (s : State) : Host.Outcome State Fault Refusal :=
  match s.eng.st with
  | .running => runInstr (s.withEngine s.eng.begin)
  | .blocked => runInstr (s.withEngine s.eng.begin)
  | .halted => .next s
  | .faulted => .next s

end Sys2Proof.Machine
end

