-- ==== Sys2Proof/Machine/HostOps.lean ====
section
/-! DEFINITION. The Engine's public operations but `execute` (46_host-interface.md R97 to R103). Each is one atomic
exchange that the host makes between `execute()` calls (R96). -/

namespace Sys2Proof.Machine

/-- `load(image)`, the only reset: a fresh Engine over a copy of the image (46_host-interface.md R97; 10_state.md
R31). -/
def Engine.load (cfg : Config) (image : List Word) : Except Refusal Engine :=
  if fits cfg.memWords image.length then .ok { Engine.reset with mem := Memory.ofImage image }
  else .error .imageTooLarge

/-- `write(value)`: the only producer of `IQ` (46_host-interface.md R98; 20_memory.md R50). -/
def Engine.write (cfg : Config) (v : Word) (e : Engine) : Except Refusal Engine :=
  if queueFull cfg.iqDepth e.iq then .error .inputQueueFull else .ok { e with iq := enqueue e.iq v }

/-- `read()`: the head of `OQ`, or "no value available" (46_host-interface.md R99). -/
def Engine.read (e : Engine) : Option Word × Engine :=
  match dequeue e.oq with
  | none => (none, e)
  | some (v, q) => (some v, { e with oq := q })

/-- `peek_memory(address)` (46_host-interface.md R101). -/
def Engine.peek (a : Nat) (e : Engine) : Except Refusal Word :=
  match e.mem.read a with
  | some w => .ok w
  | none => .error .addressOutOfBounds

/-- `poke_memory(address, value)` (46_host-interface.md R102). -/
def Engine.poke (a : Nat) (v : Word) (e : Engine) : Except Refusal Engine :=
  match e.mem.write a v with
  | some m => .ok { e with mem := m }
  | none => .error .addressOutOfBounds

end Sys2Proof.Machine
end

