-- ==== Sys2Proof/Machine/Orchestrator.lean ====
section
/-! DEFINITION. The Pipeline Orchestrator (47_orchestrator.md R106 to R115): the set-up of a run, and what a round does
once the current stage's `execute()` has returned. -/

namespace Sys2Proof.Machine

/-- `INITIAL_SIGNAL` where the caller gives none (00_scope.md R6). -/
def defaultSignal : Word := 0

/-- A stage loaded from the shared image with its phase as first input (47_orchestrator.md R108). -/
def loadStage (cfg : Config) (image : List Word) (phase : Word) : Except Refusal Engine :=
  match Engine.load cfg image with
  | .error r => .error r
  | .ok e => e.write cfg phase

def loadStages (cfg : Config) (image : List Word) : List Word → Except Refusal (List Engine)
  | [] => .ok []
  | p :: ps =>
    match loadStage cfg image p with
    | .error r => .error r
    | .ok e =>
      match loadStages cfg image ps with
      | .error r => .error r
      | .ok es => .ok (e :: es)

/-- `Setup(image, PHASES, S)`: a run with no phases is refused (47_orchestrator.md R107, R108). The `ABORT` registers
start as after reset (log 9). -/
def setup (cfg : Config) (image phases : List Word) (signal : Word) : Except Refusal State :=
  match loadStages cfg image phases with
  | .error r => .error r
  | .ok [] => .error .noStages
  | .ok (e :: es) =>
    match e.write cfg signal with
    | .error r => .error r
    | .ok e0 =>
      .ok { cfg := cfg, before := [], eng := e0, after := es, pst := .running, result := none,
            abortStage := 0, abortFc := .none, abortFi := 0 }

/-- The values of a relay written one by one, in order, to the next stage (47_orchestrator.md R110). What happens when a
finite `IQ` is full is not said: the step is refused by name (log 7). -/
def relayInto (cfg : Config) : List Word → Engine → Except Refusal Engine
  | [], e => .ok e
  | v :: vs, e =>
    match e.write cfg v with
    | .error _ => .error .relayQueueFull
    | .ok e' => relayInto cfg vs e'

/-- The current stage after the relay has read every value of its `OQ`. -/
def Engine.drained (e : Engine) : Engine := { e with oq := [] }

/-- `Relay(CUR, (CUR + 1) mod N)`, then `CUR <- (CUR + 1) mod N` (47_orchestrator.md R109, R110). -/
def State.relayNext (s : State) : Except Refusal State :=
  match s.after, s.before with
  | e :: rest, _ =>
    match relayInto s.cfg s.eng.oq e with
    | .error r => .error r
    | .ok e' => .ok { s with before := s.before ++ [s.eng.drained], eng := e', after := rest }
  | [], e :: rest =>
    match relayInto s.cfg s.eng.oq e with
    | .error r => .error r
    | .ok e' => .ok { s with before := [], eng := e', after := rest ++ [s.eng.drained] }
  | [], [] =>
    match relayInto s.cfg s.eng.oq s.eng.drained with
    | .error r => .error r
    | .ok e' => .ok { s with eng := e' }

/-- `Finish()`: the result is the tail of the final stage's `OQ`, read before that round's relay (47_orchestrator.md
R111). -/
def State.finish (s : State) : State := { s with pst := .done, result := queueTail s.eng.oq }

/-- `Abort(CUR, c, f)` (47_orchestrator.md R112). -/
def State.abort (s : State) : State :=
  { s with pst := .aborted, abortStage := s.cur, abortFc := s.eng.fc, abortFi := s.eng.fi }

/-- What `Round()` does after `execute()` returned: fault check, then termination check, then relay
(47_orchestrator.md R109). -/
def State.endRound (s : State) : Except Refusal State :=
  match s.eng.st with
  | .faulted => .ok s.abort
  | .halted => if s.after = [] then .ok s.finish else s.relayNext
  | .running => s.relayNext
  | .blocked => s.relayNext

/-- After one step of the current stage: its `execute()` goes on while `ST` is Running, and has returned otherwise
(40_execution-cycle.md R66). Nothing can happen in between, so the round ends in the same step (log 6). -/
def State.afterStep (s : State) : Host.Outcome State Fault Refusal :=
  if s.eng.st = .running then .next s
  else
    match s.endRound with
    | .ok t => .next t
    | .error r => .refused r

end Sys2Proof.Machine
end

