-- ==== Sys2Proof/Machine/Step.lean ====
section
/-! DEFINITION. One step of the block, and where a step fetches its next instruction. -/

namespace Sys2Proof.Machine

/-- One step. Outside a run of the ring the host calls `execute()` on the Engine in focus, again whenever it returns
(log 2). In a run the Orchestrator calls it on the current stage and ends the round when it returns
(47_orchestrator.md R109). After a run no further `execute()` is called (R111, R112; log 10). -/
def step (s : State) : Host.Outcome State Fault Refusal :=
  match s.pst with
  | .idle => executeStep s
  | .running =>
    match executeStep s with
    | .next t => t.afterStep
    | .fault r => .fault r
    | .refused r => .refused r
  | .done => .next s
  | .aborted => .next s

/-- An Engine that fetches at its next step: one that is Halted or Faulted is replaced as a `load` would
(40_execution-cycle.md R66). -/
def Engine.awake (e : Engine) : Engine :=
  match e.st with
  | .running => e
  | .blocked => e
  | .halted => { e with st := .running, fc := .none, fi := 0 }
  | .faulted => { e with st := .running, fc := .none, fi := 0 }

/-- A block whose next step executes: a run that is over is left (log 1). -/
def PipeStatus.awake : PipeStatus → PipeStatus
  | .idle => .idle
  | .running => .running
  | .done => .idle
  | .aborted => .idle

/-- The words numbered as spec/opcode_table.json numbers their bits, placed from `IP` on, in a Memory long enough for
the longest instruction. It stands for the host's `load` of a program (log 1). -/
def State.withFetchWord (s : State) (nbits w : Nat) : State :=
  { s with
    eng := { s.eng.awake with mem := (s.eng.mem.extend (s.eng.ip + maxWidth)).place s.eng.ip (tableWords nbits w) }
    pst := s.pst.awake }

end Sys2Proof.Machine
end

