-- ==== Sys2Proof/Machine/ProgramText.lean ====
section
/-! DEFINITION. The program text format: how the host makes an image from text before `load` (46_host-interface.md
R105). -/

namespace Sys2Proof.Machine

/-- The text split at every occurrence of a character. -/
def splitAtChar (d : Char) : List Char → List (List Char)
  | [] => [[]]
  | c :: cs =>
    if c = d then [] :: splitAtChar d cs
    else
      match splitAtChar d cs with
      | [] => [[c]]
      | t :: ts => (c :: t) :: ts

/-- Space, tab, carriage return, line feed. -/
def isBlank (c : Char) : Bool := c == ' ' || c == '\t' || c == '\r' || c == '\n'

/-- A token without its leading and trailing white space. -/
def trim (cs : List Char) : List Char := ((cs.dropWhile isBlank).reverse.dropWhile isBlank).reverse

def isDecimal (c : Char) : Bool := decide (48 ≤ c.toNat) && decide (c.toNat ≤ 57)

/-- The value of a token that matches `[0-9]+`. -/
def natOfChars (cs : List Char) : Option Nat :=
  if cs ≠ [] ∧ cs.all isDecimal = true then some (cs.foldl (fun n c => 10 * n + (c.toNat - 48)) 0) else none

/-- The value of a token that matches `[+-]?[0-9]+`. -/
def intOfChars : List Char → Option Int
  | [] => none
  | c :: cs =>
    if c = '-' then (natOfChars cs).map (fun n : Nat => -(n : Int))
    else if c = '+' then (natOfChars cs).map (fun n : Nat => (n : Int))
    else (natOfChars (c :: cs)).map (fun n : Nat => (n : Int))

/-- A number in the range of a word. -/
def wordOfInt (n : Int) : Option Word :=
  if -(2 ^ 63 : Int) ≤ n ∧ n < (2 ^ 63 : Int) then some (BitVec.ofInt 64 n) else none

/-- A token as a word; every other token is skipped. -/
def wordOfToken (cs : List Char) : Option Word := (intOfChars (trim cs)).bind wordOfInt

/-- The image of a program text. -/
def imageOfText (text : List Char) : List Word := (splitAtChar ',' text).filterMap wordOfToken

end Sys2Proof.Machine
end

