-- ==== Sys2Proof/Machine/Assembly.lean ====
section
/-! DEFINITION. The assembly the spec writes its programs in (30_encoding.md R64): notation for images, used by the
host side only. The image remains the normative form (92_eei_decisions.md D26). -/

namespace Sys2Proof.Machine

/-- A number or a label. -/
inductive AsmValue where
  | number (n : Int)
  | label (name : List Char)
  deriving DecidableEq, Repr

/-- `[n]` is Position, `#n` is Immediate. -/
inductive AsmOperand where
  | position (v : AsmValue)
  | immediate (v : AsmValue)
  deriving DecidableEq, Repr

inductive AsmItem where
  /-- `name:` names the index of the next word. -/
  | label (name : List Char)
  /-- `.word v, v, ...` places raw words; a value may be a label too, and places the label's index (DESIGN CHOICE,
  log 23: 30_encoding.md R64 names a label for an operand's value only). -/
  | words (vs : List AsmValue)
  /-- One instruction. -/
  | instr (op : Opcode) (operands : List AsmOperand)
  deriving DecidableEq, Repr

/-- The names of the instructions. -/
def opcodeName : Opcode → List Char
  | .add => "add".toList
  | .multiply => "multiply".toList
  | .input => "input".toList
  | .output => "output".toList
  | .jumpIfTrue => "jump-if-true".toList
  | .jumpIfFalse => "jump-if-false".toList
  | .lessThan => "less-than".toList
  | .equals => "equals".toList
  | .halt => "halt".toList

/-- The destination parameter of an instruction, counted from 0 (30_encoding.md R58). -/
def opcodeDst : Opcode → Option Nat
  | .add => some 2
  | .multiply => some 2
  | .input => some 0
  | .output => none
  | .jumpIfTrue => none
  | .jumpIfFalse => none
  | .lessThan => some 2
  | .equals => some 2
  | .halt => none

def AsmOperand.value : AsmOperand → AsmValue
  | .position v => v
  | .immediate v => v

def AsmOperand.digit : AsmOperand → Nat
  | .position _ => 0
  | .immediate _ => 1

/-- The number of words an item takes. -/
def AsmItem.size : AsmItem → Nat
  | .label _ => 0
  | .words vs => vs.length
  | .instr _ operands => 1 + operands.length

/-- The index each label names: one entry for each definition, in the order of the program. A label behind the last word
names the index one past it (DESIGN CHOICE, log 23). -/
def labelTable : Nat → List AsmItem → List (List Char × Nat)
  | _, [] => []
  | at_, .label name :: rest => (name, at_) :: labelTable at_ rest
  | at_, .words vs :: rest => labelTable (at_ + vs.length) rest
  | at_, .instr _ operands :: rest => labelTable (at_ + (1 + operands.length)) rest

/-- A value as a word. A label defined twice names the index of its first definition (DESIGN CHOICE, log 23:
30_encoding.md R64 does not say what such a label names). -/
def AsmValue.word (labels : List (List Char × Nat)) : AsmValue → Option Word
  | .number n => wordOfInt n
  | .label name => (labels.lookup name).bind (fun i => wordOfInt (i : Int))

def asmDigits : List AsmOperand → Nat
  | [] => 0
  | o :: os => o.digit + 10 * asmDigits os

/-- An instruction has the operands of its format, and its destination is written `[n]`. -/
def asmOperandsOk (op : Opcode) (operands : List AsmOperand) : Bool :=
  decide (operands.length = op.numParams) &&
    match opcodeDst op with
    | none => true
    | some k => decide ((operands.map AsmOperand.digit)[k]? = some 0)

/-- The words of an item: `IR = opcode + 100*M[1] + 1000*M[2] + 10000*M[3]`, then the parameter words. A `.word` value
may be a label and then places its index (DESIGN CHOICE, log 23). -/
def AsmItem.emit (labels : List (List Char × Nat)) : AsmItem → Option (List Word)
  | .label _ => some []
  | .words vs => vs.mapM (AsmValue.word labels)
  | .instr op operands =>
    if asmOperandsOk op operands then
      (operands.mapM (fun o : AsmOperand => o.value.word labels)).map
        (fun ws => BitVec.ofNat 64 (op.code + 100 * asmDigits operands) :: ws)
    else none

/-- The image a program assembles to; one item that is refused refuses the program (log 23). -/
def assemble (items : List AsmItem) : Option (List Word) :=
  (items.mapM (AsmItem.emit (labelTable 0 items))).map List.flatten

/-! ### Reading the text -/

/-- A text that reads as a number is a number, with a plus sign or leading zeros too, also where a label of that text is
defined (DESIGN CHOICE, log 23); any other text is a label (log 19). White space around the text, so also inside `[ n ]`
and `# n`, is taken off (DESIGN CHOICE, log 23). -/
def asmValueOf (cs : List Char) : Option AsmValue :=
  match trim cs with
  | [] => none
  | c :: rest =>
    match intOfChars (c :: rest) with
    | some n => some (.number n)
    | none => some (.label (c :: rest))

/-- `[n]` or `#n`, white space around it or around its `n` taken off (DESIGN CHOICE, log 23). -/
def asmOperandOf (cs : List Char) : Option AsmOperand :=
  match trim cs with
  | '#' :: rest => (asmValueOf rest).map .immediate
  | '[' :: rest =>
    match rest.reverse with
    | ']' :: inner => (asmValueOf inner.reverse).map .position
    | _ => none
  | _ => none

/-- Comma-separated parts, none for an empty text, so that a bare `.word` places no word (DESIGN CHOICE, log 23). -/
def asmParts (cs : List Char) : List (List Char) :=
  match trim cs with
  | [] => []
  | c :: rest => splitAtChar ',' (c :: rest)

/-- A line without its label: nothing, a `.word` line or an instruction. White space around it is taken off (DESIGN
CHOICE, log 23). -/
def asmStatement (cs : List Char) : Option (List AsmItem) :=
  match trim cs with
  | [] => some []
  | c :: rest =>
    let name := (c :: rest).takeWhile (fun x => !isBlank x)
    let tail := (c :: rest).dropWhile (fun x => !isBlank x)
    if name = ".word".toList then ((asmParts tail).mapM asmValueOf).map (fun vs => [.words vs])
    else
      match Opcode.table.find? (fun op => decide (opcodeName op = name)) with
      | none => none
      | some op => ((asmParts tail).mapM asmOperandOf).map (fun os => [.instr op os])

/-- One line: an optional `label:`, then a statement. What follows a `;` is a comment, as in the listings of
95_test_vectors.md (log 19). White space around a label before its colon is taken off, a label may stand alone on its
line, a second colon is refused, and a blank text before the colon is a label that no operand can name (DESIGN CHOICE,
log 23). -/
def asmLine (cs : List Char) : Option (List AsmItem) :=
  match splitAtChar ':' (cs.takeWhile (fun x => decide (x ≠ ';'))) with
  | [] => some []
  | [body] => asmStatement body
  | [name, body] => (asmStatement body).map (fun items => .label (trim name) :: items)
  | _ => none

/-- The image a program text in assembly assembles to, one line for each element. -/
def assembleLines (lines : List (List Char)) : Option (List Word) :=
  (lines.mapM asmLine).bind (fun items => assemble items.flatten)

end Sys2Proof.Machine
end

