-- ==== Sys2Proof/Machine/Requests.lean ====
section
/-! DEFINITION. `execute()` to its end, a run of the ring to its end, and the host's requests (46_host-interface.md
R95 to R104; 47_orchestrator.md R107). Running out of fuel is no result, never a final state (40_execution-cycle.md
R68). -/

namespace Sys2Proof.Machine

/-- The loop of `execute()`: steps until one does not end Running (40_execution-cycle.md R66). -/
def executeLoop : Nat → State → Option (Host.Outcome State Fault Refusal)
  | 0, _ => none
  | k + 1, s =>
    match runInstr s with
    | .next t => if t.eng.st = .running then executeLoop k t else some (.next t)
    | .fault r => some (.fault r)
    | .refused r => some (.refused r)

/-- `execute()` on the Engine in focus (40_execution-cycle.md R66; 46_host-interface.md R100). -/
def execute (fuel : Nat) (s : State) : Option (Host.Outcome State Fault Refusal) :=
  match s.eng.st with
  | .running => executeLoop fuel (s.withEngine s.eng.begin)
  | .blocked => executeLoop fuel (s.withEngine s.eng.begin)
  | .halted => some (.next s)
  | .faulted => some (.next s)

/-- The rounds of a run, "repeat indefinitely" until it is done or aborted (47_orchestrator.md R109, R115). -/
def runRing : Nat → State → Option (Host.Outcome State Fault Refusal)
  | 0, _ => none
  | k + 1, s =>
    match step s with
    | .next t => if t.pst = .running then runRing k t else some (.next t)
    | .fault r => some (.fault r)
    | .refused r => some (.refused r)

/-- What a host may ask of the block. -/
inductive HostRequest where
  /-- `load(image)`: a new Engine in place of the one in focus (46_host-interface.md R97, 70_reset_and_hazards.md
  R139). -/
  | load (image : List Word)
  /-- `write(value)` (R98). -/
  | write (v : Word)
  /-- `read()` (R99). -/
  | read
  /-- `execute()` (R100). -/
  | execute
  /-- `peek_memory(address)` (R101). -/
  | peek (a : Nat)
  /-- `poke_memory(address, value)` (R102). -/
  | poke (a : Nat) (v : Word)
  /-- A second Engine with the same state beside the one in focus (R103). -/
  | clone
  /-- Address the host's Engine number `j` from now on (log 17). -/
  | select (j : Nat)
  /-- A pipeline run with its three arguments (47_orchestrator.md R107). -/
  | pipeline (image phases : List Word) (signal : Option Word)
  deriving DecidableEq, Repr

/-- What the host is answered. -/
inductive HostResponse where
  | done
  /-- The word of `peek_memory`. -/
  | word (w : Word)
  /-- The value of `read()`; `none` is "no value available". -/
  | value (v : Option Word)
  /-- The state `execute()` returns, with the fault it surfaces (46_host-interface.md R100). -/
  | state (st : ExecState) (fc : FaultCode) (fi : Word)
  /-- The result of a pipeline run; `none` is NoResult (47_orchestrator.md R111). -/
  | result (r : Option Word)
  /-- `Aborted(stage, FC, FI)` (47_orchestrator.md R112). -/
  | aborted (stage : Nat) (fc : FaultCode) (fi : Word)
  | refused (r : Refusal)
  deriving DecidableEq, Repr

/-- The Engine in focus replaced by what a host operation gives, or the host told of its refusal. -/
def State.update (s : State) (r : Except Refusal Engine) : HostResponse × State :=
  match r with
  | .ok e => (.done, s.withEngine e)
  | .error r => (.refused r, s)

/-- The host's Engine number `j` in focus. -/
def State.select (s : State) (j : Nat) : Except Refusal State :=
  match s.stages.drop j with
  | [] => .error .noSuchEngine
  | e :: rest => .ok { s with before := s.stages.take j, eng := e, after := rest }

/-- What the end of an `execute()` call tells the host. No call is refused: every step of it answers a next state. -/
def executeAnswer (s : State) : Host.Outcome State Fault Refusal → HostResponse × State
  | .next t => (.state t.eng.st t.eng.fc t.eng.fi, t)
  | .fault _ => (.done, s)
  | .refused r => (.refused r, s)

/-- What the end of a pipeline run tells the host. A run that a relay into a full finite `IQ` has ended is refused, and
the host has the block as it was before the request, without the run's Engines: the model's choice, for the spec does not
say what such a run leaves (DESIGN CHOICE, unsafe, log 22). -/
def pipelineAnswer (s : State) : Host.Outcome State Fault Refusal → HostResponse × State
  | .next t =>
    match t.pst with
    | .done => (.result t.result, t)
    | .aborted => (.aborted t.abortStage t.abortFc t.abortFi, t)
    | .idle => (.done, t)
    | .running => (.done, t)
  | .fault _ => (.done, s)
  | .refused r => (.refused r, s)

/-- A request to a block that runs no ring. -/
def serve (fuel : Nat) (q : HostRequest) (s : State) : Option (HostResponse × State) :=
  match q with
  | .load image => some (s.update (Engine.load s.cfg image))
  | .write v => some (s.update (s.eng.write s.cfg v))
  | .read => some (.value s.eng.read.1, s.withEngine s.eng.read.2)
  | .execute => (execute fuel s).map (executeAnswer s)
  | .peek a =>
    match s.eng.peek a with
    | .ok w => some (.word w, s)
    | .error r => some (.refused r, s)
  | .poke a v => some (s.update (s.eng.poke a v))
  | .clone => some (.done, { s with after := s.eng :: s.after })
  | .select j =>
    match s.select j with
    | .ok t => some (.done, t)
    | .error r => some (.refused r, s)
  | .pipeline image phases signal =>
    match setup s.cfg image phases (signal.getD defaultSignal) with
    | .ok t => (runRing fuel t).map (pipelineAnswer s)
    | .error r => some (.refused r, s)

/-- One request of the host. None lands while the Orchestrator runs the ring (47_orchestrator.md R114; log 11). `none`
is an `execute()` or a run that did not end within the fuel. -/
def request (fuel : Nat) (q : HostRequest) (s : State) : Option (HostResponse × State) :=
  if s.pst = .running then some (.refused .pipelineRunning, s) else serve fuel q s

/-- The host's requests in order, with their answers. -/
def requests (fuel : Nat) : List HostRequest → State → Option (List HostResponse × State)
  | [], s => some ([], s)
  | q :: qs, s =>
    match request fuel q s with
    | none => none
    | some (r, t) => (requests fuel qs t).map (fun a => (r :: a.1, a.2))

end Sys2Proof.Machine
end

