-- ==== Sys2Proof/Safety.lean ====
section
/-! DEFINITION. The invariants of the block and the ways a run ends, in the terms the statements use. -/

namespace Sys2Proof.Machine

/-- A source parameter can be resolved, to the word `v`: the word at its Position address, or its Immediate word itself
(30_encoding.md R56; 40_execution-cycle.md R74). -/
abbrev SourceReads (m : Memory) (p : Param) (v : Word) : Prop :=
  (p.mode = .position ∧ m.read p.word.toInt = some v) ∨ (p.mode = .immediate ∧ p.word = v)

/-- Source parameter `k` cannot be resolved: a mode digit 2 to 9, or a Position word outside `0 .. L-1`
(40_execution-cycle.md R74). -/
abbrev SourceFaults (m : Memory) (k : Nat) (p : Param) (f : FaultInfo) : Prop :=
  (p.mode ≠ .position ∧ p.mode ≠ .immediate ∧ f = ⟨.invalidMode, BitVec.ofNat 64 k⟩) ∨
  (p.mode = .position ∧ ¬ (0 ≤ p.word.toInt ∧ p.word.toInt < (m.len : Int)) ∧ f = ⟨.outOfBounds, p.word⟩)

/-- A destination parameter gives the index `t` of Memory, under mode digits 0 and 1 alike (40_execution-cycle.md
R75). -/
abbrev DestReaches (m : Memory) (p : Param) (t : Int) : Prop :=
  (p.mode = .position ∨ p.mode = .immediate) ∧ p.word.toInt = t ∧ 0 ≤ t ∧ t < (m.len : Int)

/-- Destination parameter `k` gives no index: a mode digit 2 to 9, or a word outside `0 .. L-1`
(40_execution-cycle.md R75). -/
abbrev DestFaults (m : Memory) (k : Nat) (p : Param) (f : FaultInfo) : Prop :=
  (p.mode ≠ .position ∧ p.mode ≠ .immediate ∧ f = ⟨.missingDestination, BitVec.ofNat 64 k⟩) ∨
  ((p.mode = .position ∨ p.mode = .immediate) ∧ ¬ (0 ≤ p.word.toInt ∧ p.word.toInt < (m.len : Int)) ∧
    f = ⟨.outOfBounds, p.word⟩)

/-- What `FI` may hold beside each `FC` (10_state.md R24; 60_exceptions.md R118, R119). -/
abbrev faultInfoOk (cfg : Config) (fc : FaultCode) (fi : Word) : Prop :=
  (fc = .none → fi = 0) ∧
  (fc = .unknownOpcode → decodeOpcode fi = none) ∧
  (fc = .invalidMode → fi = 1 ∨ fi = 2) ∧
  (fc = .missingDestination → fi = 1 ∨ fi = 3) ∧
  (fc = .queueOverflow → cfg.oqDepth ≠ none)

/-- What holds of every Engine between steps: the Memory in its canonical form and within its capacity, `0 <= IP <= L`
(10_state.md R17), the queues within their depths (20_memory.md R50), `FC` and `FI` set exactly while `ST` is Faulted
(10_state.md R23, R24). -/
abbrev Engine.Ok (cfg : Config) (e : Engine) : Prop :=
  e.mem.wf = true ∧
  e.ip ≤ e.mem.len ∧
  fits cfg.memWords e.mem.len = true ∧
  fits cfg.iqDepth e.iq.length = true ∧
  fits cfg.oqDepth e.oq.length = true ∧
  (e.st = .faulted ↔ e.fc ≠ .none) ∧
  faultInfoOk cfg e.fc e.fi

/-- Every Engine of the block is in order. -/
abbrev State.EnginesOk (s : State) : Prop := ∀ e ∈ s.stages, e.Ok s.cfg

/-- What holds of the Orchestrator's registers. In a run every stage but the current one has an empty `OQ`, no stage is
Faulted and a stage that has halted is not the final one; after it the current stage is the one that ended it
(47_orchestrator.md R109 to R113); `RESULT` is NoResult until a run is done (R108). -/
abbrev State.RingOk (s : State) : Prop :=
  (s.pst = .running →
    (∀ e ∈ s.before ++ s.after, e.oq = []) ∧
    (∀ e ∈ s.stages, e.st ≠ .faulted) ∧
    (∀ e ∈ s.stages.getLast?, e.st ≠ .halted)) ∧
  (s.pst = .done → s.after = [] ∧ s.eng.st = .halted ∧ s.result = queueTail s.eng.oq) ∧
  (s.pst = .aborted →
    s.eng.st = .faulted ∧ s.abortStage = s.cur ∧ s.abortFc = s.eng.fc ∧ s.abortFi = s.eng.fi) ∧
  (s.pst ≠ .done → s.result = none)

/-- The invariant that every step keeps. -/
abbrev State.Inv (s : State) : Prop := s.EnginesOk ∧ s.RingOk

/-- `execute()` returns, in the state `t`. -/
def ExecutesTo (s t : State) : Prop := ∃ fuel, execute fuel s = some (.next t)

/-- The next `execute()` call ends Halted (70_reset_and_hazards.md R144). -/
def Finishes (s : State) : Prop := ∃ t, ExecutesTo s t ∧ t.eng.st = .halted

/-- The next `execute()` call ends Faulted. -/
def Fails (s : State) : Prop := ∃ t, ExecutesTo s t ∧ t.eng.st = .faulted

/-- The next `execute()` call ends Blocked. -/
def Suspends (s : State) : Prop := ∃ t, ExecutesTo s t ∧ t.eng.st = .blocked

/-- The next `execute()` call never returns: a hang, not a fault (40_execution-cycle.md R68). -/
def Hangs (s : State) : Prop := ∀ fuel, execute fuel s = none

/-- A run of the ring that never ends (47_orchestrator.md R115). -/
def RingHangs (s : State) : Prop := ∀ fuel, runRing fuel s = none

/-- A safe run of `k` steps: no step is turned away, and the invariant holds at its end. -/
def SafeFor (k : Nat) (s : State) : Prop := ∃ t : State, Host.Core.run Sys2Proof.core k s = .next t ∧ t.Inv

end Sys2Proof.Machine
end

