-- ==== Sys2Proof/Certificates/Slice0/Obligations.lean ====
section
/-! DEFINITION. The statements for the provers. A statement about one step of the Engine is about `executeStep`, the
step of an `execute()` call; `StepRunsDecodedInstruction` says how `step` uses it. -/

namespace Sys2Proof.Machine

/-- The Engine in focus executes at its next step: `ST` is Running or Blocked (40_execution-cycle.md R66). -/
abbrev Executes (s : State) : Prop := s.eng.st = .running ∨ s.eng.st = .blocked

/-- The state at the start of the instruction: `ST` is Running and nothing else has changed. -/
abbrev Started (s : State) : State := { s with eng := { s.eng with st := .running } }

/-- The state after fault entry: `ST`, `FC` and `FI` are written and nothing else changes (60_exceptions.md R125). -/
abbrev FaultOf (s : State) (f : FaultInfo) : State :=
  { s with eng := { s.eng with st := .faulted, fc := f.code, fi := f.info } }

/-- `t` is `s` with `IP` advanced by `width` and the one word at index `a` replaced by `v`: no other word of Memory, no
queue, no status register, no other Engine and no register of the Orchestrator has changed. -/
abbrev StoredOne (s t : State) (a : Int) (v : Word) (width : Nat) : Prop :=
  t = { s with eng := { s.eng with mem := t.eng.mem, ip := s.eng.ip + width } } ∧
  t.eng.mem.len = s.eng.mem.len ∧ t.eng.mem.read a = some v ∧
  ∀ b : Int, b ≠ a → t.eng.mem.read b = s.eng.mem.read b

/-- The next fetch after `u` finds the word `v`, and faults with it if it is no instruction, in an Engine that was
executing in `s`. -/
abbrev FetchesNext (s u : State) (v : Word) : Prop :=
  u.eng.window.head? = some v ∧
  (decodeOpcode v = none → Executes s → executeStep u = .next (FaultOf u ⟨.unknownOpcode, v⟩))

/-- The value `wrap64(x)` in the spec's own formula (00_scope.md R7). -/
abbrev wrapFormula (x : Int) : Int := (x + 2 ^ 63) % 2 ^ 64 - 2 ^ 63

/-- The four instructions of format F3 (30_encoding.md R58). -/
abbrev ThreeOperandForm (mk : Param → Param → Param → Instr) : Prop :=
  mk = .add ∨ mk = .multiply ∨ mk = .lessThan ∨ mk = .equals

/-- The two instructions of format F2. -/
abbrev JumpForm (mk : Param → Param → Instr) : Prop := mk = .jumpIfTrue ∨ mk = .jumpIfFalse

/-- An Engine that blocks at its next step: an input instruction with a good destination on an empty `IQ`. -/
abbrev WaitsForInput (e : Engine) : Prop :=
  e.st = .blocked ∧ e.iq = [] ∧ ∃ d t, e.fetch = .ok (.input d) ∧ DestReaches e.mem d t

/-- No stage can make progress: every `OQ` is empty, every stage waits for input or has halted, and the final stage has
not halted (47_orchestrator.md R115). -/
abbrev Deadlocked (s : State) : Prop :=
  s.pst = .running ∧ (∀ e ∈ s.stages, e.oq = [] ∧ (WaitsForInput e ∨ e.st = .halted)) ∧
  ∀ e ∈ s.stages.getLast?, e.st ≠ .halted

/-- A request that acts on the Engine in focus: every operation of 46_host-interface.md. -/
abbrev OnOneEngine (q : HostRequest) : Prop :=
  q = .read ∨ q = .execute ∨ (∃ image, q = .load image) ∨ (∃ v, q = .write v) ∨ (∃ a, q = .peek a) ∨ ∃ a v, q = .poke a v

/-- A digit as a character. -/
abbrev digitChar (d : Nat) : Char := Char.ofNat (48 + d)

/-- The decimal digits of a number, most significant first. -/
abbrev decimalChars (n : Nat) : List Char := ((Nat.digits 10 n).reverse).map digitChar

/-- The digits of a number after this many leading zeros; the number 0 has no digits of its own. -/
abbrev paddedChars (zeros n : Nat) : List Char := List.replicate zeros '0' ++ decimalChars n

/-- A parameter as the assembly writes it. -/
def asmOperand (p : Param) : AsmOperand :=
  if p.mode = .immediate then .immediate (.number p.word.toInt) else .position (.number p.word.toInt)

end Sys2Proof.Machine

open Sys2Proof Sys2Proof.Machine

/-! ### Encoding -/

/-- Decoding the words of a well-formed instruction, whatever words follow them, gives the instruction back: no field is
dropped or confused (30_encoding.md sections 1 to 4). -/
def Obligations.DecodeInvertsEncode : Prop :=
  ∀ (i : Instr) (rest : List Word), i.wf = true → decode (encode i ++ rest) = .ok i

/-- What decodes is well-formed, its opcode is `IR mod 100`, its mode digits are the digits of the instruction word at
10^2, 10^3, 10^4, and its parameter words are the words that follow, as many as its opcode has (30_encoding.md R51, R52,
R53). -/
def Obligations.DecodedFieldsAreTheDigits : Prop :=
  ∀ (ir : Word) (ps : List Word) (i : Instr), decode (ir :: ps) = .ok i →
    i.wf = true ∧ 0 ≤ ir.toInt ∧ (i.opcode.code : Int) = ir.toInt % 100 ∧
    i.params.length = i.opcode.numParams ∧ i.params.length ≤ ps.length ∧
    i.params.map Param.word = ps.take i.params.length ∧
    ∀ (k : Nat) (hk : k < i.params.length), ((i.params[k]).mode.digit : Int) = ir.toInt / 10 ^ (k + 2) % 10

/-- Mode digits of absent parameters and every digit at 10^5 and above change nothing: the spec's decision D7
(92_eei_decisions.md). -/
def Obligations.IgnoredDigitsChangeNothing : Prop :=
  ∀ (ir ir' : Word) (ps : List Word) (op : Opcode), decodeOpcode ir = some op → 0 ≤ ir'.toInt →
    ir'.toInt % 100 = ir.toInt % 100 →
    (∀ k, 1 ≤ k → k ≤ op.numParams → ir'.toInt / 10 ^ (k + 1) % 10 = ir.toInt / 10 ^ (k + 1) % 10) →
    decode (ir' :: ps) = decode (ir :: ps)

/-- One word of each instruction, written out from the opcode map: the spec's own examples (30_encoding.md R53, R57, R60;
45_halt.md R94). -/
def Obligations.SampleWordsDecode : Prop :=
  decode [1, 9, 10, 3] = .ok (.add ⟨.position, 9⟩ ⟨.position, 10⟩ ⟨.position, 3⟩) ∧
  decode [1101, 100, -1, 4] = .ok (.add ⟨.immediate, 100⟩ ⟨.immediate, -1⟩ ⟨.position, 4⟩) ∧
  decode [1002, 4, 3, 4] = .ok (.multiply ⟨.position, 4⟩ ⟨.immediate, 3⟩ ⟨.position, 4⟩) ∧
  decode [3, 9] = .ok (.input ⟨.position, 9⟩) ∧
  decode [104, -7] = .ok (.output ⟨.immediate, -7⟩) ∧
  decode [1105, 1, 9] = .ok (.jumpIfTrue ⟨.immediate, 1⟩ ⟨.immediate, 9⟩) ∧
  decode [6, 12, 15] = .ok (.jumpIfFalse ⟨.position, 12⟩ ⟨.position, 15⟩) ∧
  decode [7, 9, 10, 9] = .ok (.lessThan ⟨.position, 9⟩ ⟨.position, 10⟩ ⟨.position, 9⟩) ∧
  decode [1108, -1, 8, 3] = .ok (.equals ⟨.immediate, -1⟩ ⟨.immediate, 8⟩ ⟨.position, 3⟩) ∧
  decode [99] = .ok .halt ∧
  decode [21101, 1, 1, 0] = .ok (.add ⟨.immediate, 1⟩ ⟨.immediate, 1⟩ ⟨.other 2, 0⟩)

/-! ### Fetch and decode as steps -/

/-- An instruction word whose opcode is not in the table, a negative word among them, raises UnknownOpcode with `FI` the
word, and nothing else changes (30_encoding.md R62; a negative word by the spec's decision D4, that nothing else changes by D10,
what `FI` records by D15). -/
def Obligations.UnknownOpcodeFaults : Prop :=
  ∀ (s : State) (ir : Word), Executes s → s.eng.mem.read s.eng.ip = some ir →
    (ir.toInt < 0 ∨ ir.toInt % 100 = 0 ∨ (9 ≤ ir.toInt % 100 ∧ ir.toInt % 100 ≤ 98)) →
    executeStep s = .next (FaultOf s ⟨.unknownOpcode, ir⟩)

/-- A fetch outside Memory raises OutOfBounds with `FI` the instruction pointer, and `IP = L` is the only such value in
an Engine that is in order; inside Memory the instruction word is the word at `IP` (40_execution-cycle.md R71; that nothing else changes by
the spec's decision D10, what `FI` records by D15). -/
def Obligations.FetchOutsideMemoryFaults : Prop :=
  ∀ (s : State), Executes s →
    (s.eng.mem.read s.eng.ip = none →
      executeStep s = .next (FaultOf s ⟨.outOfBounds, BitVec.ofNat 64 s.eng.ip⟩) ∧
      (s.eng.Ok s.cfg → s.eng.ip = s.eng.mem.len)) ∧
    (∀ ir, s.eng.mem.read s.eng.ip = some ir → s.eng.window.head? = some ir)

/-- An instruction cut off by the end of Memory raises OutOfBounds with `FI = IP + k` for the lowest missing parameter
word `k`, before any operand is resolved: the spec's decision D9 (92_eei_decisions.md), with D10 and D15 for what else
changes and what `FI` records. -/
def Obligations.MissingParameterFaults : Prop :=
  ∀ (s : State) (ir : Word) (op : Opcode) (k : Nat), Executes s → s.eng.mem.read s.eng.ip = some ir →
    decodeOpcode ir = some op → 1 ≤ k → k ≤ op.numParams → s.eng.ip + k = s.eng.mem.len →
    executeStep s = .next (FaultOf s ⟨.outOfBounds, BitVec.ofNat 64 (s.eng.ip + k)⟩)

/-- When the words at `IP` decode to an instruction, a step of `execute()` is that instruction from Running
(40_execution-cycle.md R70). What one step of the machine adds is the model's choice: with `PST` Idle it is such a step,
the host calling `execute()` again, on a Blocked Engine too (DESIGN CHOICE, log 2); in a run of the ring the end of the
Orchestrator's round, `afterStep`, is part of the same step (DESIGN CHOICE, log 6). -/
def Obligations.StepRunsDecodedInstruction : Prop :=
  ∀ (s : State) (i : Instr), Executes s → decode s.eng.window = .ok i →
    executeStep s = exec i (Started s) ∧
    (s.pst = .idle → step s = exec i (Started s)) ∧
    (s.pst = .running → ∀ t, exec i (Started s) = .next t → step s = t.afterStep)

/-! ### add, multiply, less-than, equals -/

/-- add completes whenever its operands resolve: the wrapped sum goes to the destination, `IP` advances by 4, and
nothing else changes (41_arithmetic.md section 2; wrapping is the spec's decision D3). -/
def Obligations.AddStoresTheSum : Prop :=
  ∀ (a b d : Param) (s : State) (x y : Word) (t : Int),
    SourceReads s.eng.mem a x → SourceReads s.eng.mem b y → DestReaches s.eng.mem d t →
    ∃ (u : State) (v : Word), exec (.add a b d) s = .next u ∧ v.toInt = wrapFormula (x.toInt + y.toInt) ∧
      StoredOne s u t v 4

/-- multiply completes whenever its operands resolve: the wrapped product goes to the destination (41_arithmetic.md
section 2; wrapping is the spec's decision D3). -/
def Obligations.MultiplyStoresTheProduct : Prop :=
  ∀ (a b d : Param) (s : State) (x y : Word) (t : Int),
    SourceReads s.eng.mem a x → SourceReads s.eng.mem b y → DestReaches s.eng.mem d t →
    ∃ (u : State) (v : Word), exec (.multiply a b d) s = .next u ∧ v.toInt = wrapFormula (x.toInt * y.toInt) ∧
      StoredOne s u t v 4

/-- less-than completes whenever its operands resolve: 1 if the first is less in the signed order, else 0
(44_compare.md R91, R92). -/
def Obligations.LessThanStoresTheOrder : Prop :=
  ∀ (a b d : Param) (s : State) (x y : Word) (t : Int),
    SourceReads s.eng.mem a x → SourceReads s.eng.mem b y → DestReaches s.eng.mem d t →
    ∃ u : State, exec (.lessThan a b d) s = .next u ∧ StoredOne s u t (if x.toInt < y.toInt then 1 else 0) 4

/-- equals completes whenever its operands resolve: 1 if the words are equal, else 0 (44_compare.md R91, R93). -/
def Obligations.EqualsStoresTheEquality : Prop :=
  ∀ (a b d : Param) (s : State) (x y : Word) (t : Int),
    SourceReads s.eng.mem a x → SourceReads s.eng.mem b y → DestReaches s.eng.mem d t →
    ∃ u : State, exec (.equals a b d) s = .next u ∧ StoredOne s u t (if x = y then 1 else 0) 4

/-- An instruction of format F3 takes the fault of the first parameter that does not resolve, mode before address, and
nothing else changes (40_execution-cycle.md R74, R76; destination modes by the spec's decision D6, source modes by D5,
the order by D9, what `FI` records
by D15, and that nothing else changes by D10). -/
def Obligations.ThreeOperandFaultOrder : Prop :=
  ∀ (mk : Param → Param → Param → Instr) (a b d : Param) (s : State) (f : FaultInfo), ThreeOperandForm mk →
    (SourceFaults s.eng.mem 1 a f → exec (mk a b d) s = .next (FaultOf s f)) ∧
    (∀ x, SourceReads s.eng.mem a x → SourceFaults s.eng.mem 2 b f → exec (mk a b d) s = .next (FaultOf s f)) ∧
    (∀ x y, SourceReads s.eng.mem a x → SourceReads s.eng.mem b y → DestFaults s.eng.mem 3 d f →
      exec (mk a b d) s = .next (FaultOf s f))

/-! ### input and output -/

/-- input on a queue that holds a value completes: the head goes to the destination and leaves the queue, `IP` advances
by 2, and nothing else changes (42_io.md, the input instruction). -/
def Obligations.InputTakesTheHead : Prop :=
  ∀ (d : Param) (s : State) (t : Int) (v : Word) (q : List Word),
    DestReaches s.eng.mem d t → s.eng.iq = v :: q →
    ∃ u : State, exec (.input d) s = .next u ∧
      u = { s with eng := { s.eng with mem := u.eng.mem, ip := s.eng.ip + 2, iq := q } } ∧
      u.eng.mem.len = s.eng.mem.len ∧ u.eng.mem.read t = some v ∧
      ∀ b : Int, b ≠ t → u.eng.mem.read b = s.eng.mem.read b

/-- input on an empty queue changes nothing but `ST`, which becomes Blocked; at the next call it does so again
(42_io.md; 40_execution-cycle.md R80; 60_exceptions.md R127). -/
def Obligations.InputBlocksOnEmptyQueue : Prop :=
  ∀ (d : Param) (s : State) (t : Int), DestReaches s.eng.mem d t → s.eng.iq = [] →
    exec (.input d) s = .next { s with eng := { s.eng with st := .blocked } } ∧
    (s.eng.fetch = .ok (.input d) → s.eng.st = .blocked → executeStep s = .next s)

/-- A bad destination of input faults whether or not the queue is empty, and consumes nothing (42_io.md; that the fault wins
is the spec's decision D21, the fault of mode digits 2 to 9 its decision D6, what `FI` records its decision D15). -/
def Obligations.InputFaultsBeforeBlocking : Prop :=
  ∀ (d : Param) (s : State) (f : FaultInfo), DestFaults s.eng.mem 1 d f →
    exec (.input d) s = .next (FaultOf s f)

/-- output completes whenever its operand resolves and `OQ` is not a full finite queue: the value goes to the tail of
`OQ`, `IP` advances by 2, and nothing else changes (42_io.md, the output instruction; finite depths by the spec's decision
D17). -/
def Obligations.OutputAppends : Prop :=
  ∀ (a : Param) (s : State) (v : Word), SourceReads s.eng.mem a v →
    (∀ n, s.cfg.oqDepth = some n → s.eng.oq.length < n) →
    exec (.output a) s = .next { s with eng := { s.eng with ip := s.eng.ip + 2, oq := s.eng.oq ++ [v] } }

/-- output faults where its source does, and with QueueOverflow and `FI` the value where a finite `OQ` holds as many
values as its depth; nothing else changes (the spec's decisions D5, D10, D15, D17 of
92_eei_decisions.md). -/
def Obligations.OutputFaults : Prop :=
  ∀ (a : Param) (s : State),
    (∀ f, SourceFaults s.eng.mem 1 a f → exec (.output a) s = .next (FaultOf s f)) ∧
    (∀ v n, SourceReads s.eng.mem a v → s.cfg.oqDepth = some n → s.eng.oq.length = n →
      exec (.output a) s = .next (FaultOf s ⟨.queueOverflow, v⟩))

/-! ### jumps and halt -/

/-- jump-if-true completes whenever both operands resolve and a taken target lies in `0 .. L`: `IP` is the target if the
condition is not 0, else it advances by 3, and nothing else changes (43_control.md section 2; the target range is the
spec's decision D11). -/
def Obligations.JumpIfTrueMovesIp : Prop :=
  ∀ (a g : Param) (s : State) (x t : Word), SourceReads s.eng.mem a x → SourceReads s.eng.mem g t →
    (x ≠ 0 → 0 ≤ t.toInt ∧ t.toInt ≤ s.eng.mem.len) →
    exec (.jumpIfTrue a g) s =
      .next { s with eng := { s.eng with ip := if x = 0 then s.eng.ip + 3 else t.toInt.toNat } }

/-- jump-if-false completes likewise, taken exactly when the condition is 0 (43_control.md section 2; the target range is
the spec's decision D11). -/
def Obligations.JumpIfFalseMovesIp : Prop :=
  ∀ (a g : Param) (s : State) (x t : Word), SourceReads s.eng.mem a x → SourceReads s.eng.mem g t →
    (x = 0 → 0 ≤ t.toInt ∧ t.toInt ≤ s.eng.mem.len) →
    exec (.jumpIfFalse a g) s =
      .next { s with eng := { s.eng with ip := if x = 0 then t.toInt.toNat else s.eng.ip + 3 } }

/-- A jump faults where its condition or its target does not resolve, taken or not, and a taken jump faults with
OutOfBounds and `FI` the target outside `0 .. L`; `IP` stays at the jump and nothing else changes (the spec's decisions D5,
D8, D10, D11, D15 of 92_eei_decisions.md). -/
def Obligations.JumpFaults : Prop :=
  ∀ (mk : Param → Param → Instr) (a g : Param) (s : State), JumpForm mk →
    (∀ f, SourceFaults s.eng.mem 1 a f → exec (mk a g) s = .next (FaultOf s f)) ∧
    (∀ x f, SourceReads s.eng.mem a x → SourceFaults s.eng.mem 2 g f → exec (mk a g) s = .next (FaultOf s f)) ∧
    (∀ x t, SourceReads s.eng.mem a x → SourceReads s.eng.mem g t → ((mk = .jumpIfTrue ∧ x ≠ 0) ∨ (mk = .jumpIfFalse ∧ x = 0)) →
      ¬ (0 ≤ t.toInt ∧ t.toInt ≤ s.eng.mem.len) → exec (mk a g) s = .next (FaultOf s ⟨.outOfBounds, t⟩))

/-- halt always completes: `ST` becomes Halted and nothing else changes, `IP` stays at the halt (45_halt.md; `IP` by the
spec's decision D12). -/
def Obligations.HaltStops : Prop :=
  ∀ s : State, exec .halt s = .next { s with eng := { s.eng with st := .halted } }

/-! ### Frames -/

/-- What the storing instructions leave unchanged, whether they complete, block or fault: every word but the one at the
destination's address, computed by the model's own `dst` on the state the instruction starts in; the length of Memory;
`OQ`; and `IQ` for all but input, which removes at most its head (20_memory.md R35, R47; 40_execution-cycle.md R75). -/
def Obligations.FrameOfStoringForms : Prop :=
  ∀ (s u : State),
    (∀ (mk : Param → Param → Param → Instr) (a b d : Param), ThreeOperandForm mk →
      exec (mk a b d) s = .next u →
      (∀ t, dst s.eng.mem 3 d = .ok t → ∀ c : Int, c ≠ t → u.eng.mem.read c = s.eng.mem.read c) ∧
      ((∀ t, dst s.eng.mem 3 d ≠ .ok t) → u.eng.mem = s.eng.mem) ∧
      u.eng.mem.len = s.eng.mem.len ∧ u.eng.iq = s.eng.iq ∧ u.eng.oq = s.eng.oq) ∧
    (∀ d : Param, exec (.input d) s = .next u →
      (∀ t, dst s.eng.mem 1 d = .ok t → ∀ c : Int, c ≠ t → u.eng.mem.read c = s.eng.mem.read c) ∧
      ((∀ t, dst s.eng.mem 1 d ≠ .ok t) → u.eng.mem = s.eng.mem) ∧
      u.eng.mem.len = s.eng.mem.len ∧ (u.eng.iq = s.eng.iq ∨ u.eng.iq = s.eng.iq.tail) ∧ u.eng.oq = s.eng.oq)

/-- What the instructions that store nothing leave unchanged, whether they complete or fault: all of Memory and `IQ`;
`OQ` too for the jumps and halt, while output can only append to it (20_memory.md R47). -/
def Obligations.FrameOfNonStoringForms : Prop :=
  ∀ (s u : State),
    (∀ i : Instr, (i = .halt ∨ ∃ a g, i = .jumpIfTrue a g ∨ i = .jumpIfFalse a g) → exec i s = .next u →
      u.eng.mem = s.eng.mem ∧ u.eng.iq = s.eng.iq ∧ u.eng.oq = s.eng.oq) ∧
    (∀ a : Param, exec (.output a) s = .next u →
      u.eng.mem = s.eng.mem ∧ u.eng.iq = s.eng.iq ∧ (u.eng.oq = s.eng.oq ∨ ∃ v, u.eng.oq = s.eng.oq ++ [v]))

/-- Every instruction answers a next state, and leaves every other Engine, every register of the Orchestrator and the
parameters unchanged; `FC` and `FI` change only in a fault entry (10_state.md R29; 60_exceptions.md R125). -/
def Obligations.InstructionsChangeOnlyTheirEngine : Prop :=
  ∀ (i : Instr) (s : State), ∃ u : State, exec i s = .next u ∧ u = { s with eng := u.eng } ∧
    (u.eng.st = .faulted ∨ (u.eng.fc = s.eng.fc ∧ u.eng.fi = s.eng.fi)) ∧
    (u.eng.st = s.eng.st ∨ u.eng.st = .faulted ∨
      (u.eng.st = .blocked ∧ ∃ d, i = .input d) ∨ (u.eng.st = .halted ∧ i = .halt))

/-- Faults are precise: a step that ends Faulted has written `ST`, `FC` and `FI` and nothing else, so Memory, both queues
and `IP` are as before it (the spec's decision D10 of 92_eei_decisions.md). -/
def Obligations.FaultsArePrecise : Prop :=
  (∀ (i : Instr) (s u : State), exec i s = .next u → u.eng.st = .faulted → s.eng.st ≠ .faulted →
    u = FaultOf s ⟨u.eng.fc, u.eng.fi⟩ ∧ u.eng.fc ≠ .none) ∧
  (∀ s u : State, executeStep s = .next u → u.eng.st = .faulted → s.eng.st ≠ .faulted →
    u = FaultOf s ⟨u.eng.fc, u.eng.fi⟩ ∧ u.eng.fc ≠ .none)

/-- A word that an instruction stores just behind itself is the instruction word the next step fetches, with nothing in
between, and if it is no instruction that step faults with it: for the four instructions of format F3, four words long,
and for input, two words long (20_memory.md R44; 70_reset_and_hazards.md R141; the fault's entry by the spec's
decisions D10 and D15). -/
def Obligations.StoredWordIsFetchedNext : Prop :=
  (∀ (mk : Param → Param → Param → Instr) (a b d : Param) (s : State) (x y : Word), ThreeOperandForm mk →
    SourceReads s.eng.mem a x → SourceReads s.eng.mem b y → DestReaches s.eng.mem d ((s.eng.ip : Int) + 4) →
    ∃ (u : State) (v : Word), exec (mk a b d) s = .next u ∧ StoredOne s u ((s.eng.ip : Int) + 4) v 4 ∧ FetchesNext s u v) ∧
  (∀ (d : Param) (s : State) (v : Word) (q : List Word), DestReaches s.eng.mem d ((s.eng.ip : Int) + 2) →
    s.eng.iq = v :: q →
    ∃ u : State, exec (.input d) s = .next u ∧ u.eng.ip = s.eng.ip + 2 ∧ u.eng.iq = q ∧ FetchesNext s u v)

/-! ### execute() -/

/-- An Engine in Halted or Faulted does not fetch: a step and an `execute()` call change nothing (the spec's decisions D12
and D13 of 92_eei_decisions.md; that the machine's step is then one of `execute()` is log 2). -/
def Obligations.StoppedEngineDoesNotFetch : Prop :=
  ∀ (s : State), (s.eng.st = .halted ∨ s.eng.st = .faulted) →
    executeStep s = .next s ∧ (s.pst = .idle → step s = .next s) ∧
    ∀ fuel, execute fuel s = some (.next s)

/-- A step that ends Running is followed by the next one of the same call; a step that ends Blocked, Halted or Faulted
ends the call, which returns what the step left; and `execute()` never returns Running (40_execution-cycle.md R67; when it
returns, section 1 there and 70_reset_and_hazards.md section 5). -/
def Obligations.ExecuteNeverReturnsRunning : Prop :=
  (∀ (s t : State), Executes s → executeStep s = .next t → t.eng.st = .running →
    ∀ fuel, execute (fuel + 1) s = execute fuel t) ∧
  (∀ (s t : State), Executes s → executeStep s = .next t → t.eng.st ≠ .running →
    ∀ fuel, execute (fuel + 1) s = some (.next t)) ∧
  (∀ (fuel : Nat) (s t : State), execute fuel s = some (.next t) → t.eng.st ≠ .running)

/-- What `execute()` returns does not depend on the fuel it is given: fuel only bounds how long the model looks (the
spec's decision D31 of 92_eei_decisions.md). -/
def Obligations.ExecuteResultIgnoresFuel : Prop :=
  ∀ (j k : Nat) (s t u : State), execute j s = some (.next t) → execute k s = some (.next u) → t = u

/-- Outside a run of the ring, the steps of the machine are the steps of `execute()`: what a call returns is reached by some
number of steps. That a step of the machine is one of these is the model's choice (DESIGN CHOICE, log 2); the loop is that
of 40_execution-cycle.md section 1. -/
def Obligations.ExecuteIsIteratedStep : Prop :=
  ∀ (fuel : Nat) (s t : State), s.pst = .idle → execute fuel s = some (.next t) →
    ∃ k, Host.Core.run Sys2Proof.core k s = .next t

/-! ### Invariants -/

/-- The machine at reset meets the invariant. The reset values are the spec's for `load` of the empty image (10_state.md
R31) and, for the ABORT registers, the model's choice (log 9). -/
def Obligations.ResetMeetsInvariant : Prop := State.reset.Inv

/-- Every step keeps the invariant: every Memory in its canonical form and within its capacity, `0 <= IP <= L`, queues
within their depths, `FC` and `FI` set exactly while Faulted and with the values the fault table gives, and the
Orchestrator's registers in accord with the ring (10_state.md R17, R19, R23; 47_orchestrator.md; the
canonical form is log 3, what one step of the machine is log 2 and log 6). -/
def Obligations.StepKeepsInvariant : Prop := ∀ s t : State, s.Inv → step s = .next t → t.Inv

/-- A run's set-up meets the invariant. -/
def Obligations.SetupMeetsInvariant : Prop :=
  ∀ (cfg : Config) (image phases : List Word) (signal : Word) (s : State),
    setup cfg image phases signal = .ok s → s.Inv

/-- No request of the host takes an Engine out of order. -/
def Obligations.RequestsKeepEnginesInOrder : Prop :=
  ∀ (fuel : Nat) (q : HostRequest) (s t : State) (r : HostResponse),
    s.EnginesOk → request fuel q s = some (r, t) → t.EnginesOk

/-- No step changes the length of any Engine's Memory, the number of stages or a parameter (10_state.md R16; 00_scope.md
section 4). -/
def Obligations.LengthsAndParametersNeverChange : Prop :=
  ∀ s t : State, step s = .next t →
    t.stages.map (fun e => e.mem.len) = s.stages.map (fun e => e.mem.len) ∧ t.numStages = s.numStages ∧ t.cfg = s.cfg

/-- `IP` and `L` fit in every width `ADDR_W` with `2^ADDR_W > MEM_WORDS`, so holding them as numbers loses nothing
(00_scope.md section 4; log 5). -/
def Obligations.AddressesFitEveryWidth : Prop :=
  ∀ (s t : State) (c w : Nat), s.Inv → s.cfg.memWords = some c → c < 2 ^ w → step s = .next t →
    ∀ e ∈ t.stages, e.ip < 2 ^ w ∧ e.mem.len < 2 ^ w

/-- With an unbounded `IQ`, which is the spec's default, no step from a state that meets the invariant is ever turned
away, however long the run (20_memory.md R48, R50; what one step of the machine is, log 2 and log 6, and which step is turned
away with a finite `IQ`, log 7). -/
def Obligations.UnboundedRunsAreNeverRefused : Prop :=
  ∀ (k : Nat) (s : State), s.Inv → s.cfg.iqDepth = none → SafeFor k s

/-! ### Memory, queues, ALU -/

/-- A memory read returns the whole word at the index: after a load the image's word, after a write the word written
(20_memory.md R34). It answers no Memory, so it changes none. -/
def Obligations.MemReadReturnsTheWord : Prop :=
  (∀ (m : Memory) (a : Int), 0 ≤ a → a < m.len → ∃ w, memRead m a = .ok w ∧ m.read a = some w) ∧
  (∀ (image : List Word) (a : Nat) (w : Word), image[a]? = some w → memRead (Memory.ofImage image) a = .ok w) ∧
  (∀ (m m' : Memory) (a : Int) (v : Word), memWrite m a v = .ok m' → memRead m' a = .ok v)

/-- A memory write replaces the whole word at the index and no other, and keeps the length; outside `0 .. L-1` a read and
a write fault with OutOfBounds and `FI` the index (20_memory.md section 1; what `FI` records is the spec's decision D15).
A write keeps the canonical form, which is the model's representation (log 3). -/
def Obligations.MemWriteReplacesOneWord : Prop :=
  ∀ (m : Memory) (a : Int) (v : Word),
    (¬ (0 ≤ a ∧ a < m.len) → memRead m a = .error ⟨.outOfBounds, BitVec.ofInt 64 a⟩ ∧
      memWrite m a v = .error ⟨.outOfBounds, BitVec.ofInt 64 a⟩) ∧
    (0 ≤ a → a < m.len → ∃ m' : Memory, memWrite m a v = .ok m' ∧ m'.len = m.len ∧ m'.read a = some v ∧
      (∀ b : Int, b ≠ a → m'.read b = m.read b) ∧ (m.wf = true → m'.wf = true))

/-- Two Memories in canonical form with the same words are the same data: the form the model holds a Memory in adds
nothing to it (log 3). -/
def Obligations.CanonicalMemoriesAreEqual : Prop :=
  ∀ m m' : Memory, m.wf = true → m'.wf = true → m.len = m'.len → (∀ a : Int, m.read a = m'.read a) → m = m'

/-- The queue primitives: append at the tail, remove from the head, test for no elements, read the last element
(20_memory.md R46). -/
def Obligations.QueuePrimitives : Prop :=
  (∀ (q : List Word) (v : Word), enqueue q v = q ++ [v] ∧ queueTail (enqueue q v) = some v) ∧
  (∀ (q : List Word), dequeue q = none ↔ q = []) ∧
  (∀ (q : List Word) (v : Word) (r : List Word), dequeue q = some (v, r) ↔ q = v :: r) ∧
  (∀ (vs : List Word) (v : Word), dequeue ((v :: vs).foldl enqueue []) = some (v, vs.foldl enqueue []))

/-- `wrap64(x)` is the spec's formula and the only word congruent to `x` modulo `2^64` (00_scope.md, notation). -/
def Obligations.WrapIsTheCongruentWord : Prop :=
  ∀ x : Int, (wrap64 x).toInt = wrapFormula x ∧ ∀ w : Word, (w.toInt - x) % 2 ^ 64 = 0 ↔ w = wrap64 x

/-! ### Host operations -/

/-- `load` builds the Engine of the reset table over a copy of the image, in order, and refuses an image longer than
`MEM_WORDS` (10_state.md section 10; `ST`, `FC`, `FI` and the refusal by the spec's decisions D14, D15, D16, D28). -/
def Obligations.LoadBuildsAFreshEngine : Prop :=
  ∀ (cfg : Config) (image : List Word),
    (∀ n, cfg.memWords = some n → n < image.length → Engine.load cfg image = .error .imageTooLarge) ∧
    ((∀ n, cfg.memWords = some n → image.length ≤ n) →
      ∃ e, Engine.load cfg image = .ok e ∧ e.mem.len = image.length ∧
        (∀ a : Nat, e.mem.read a = image[a]?) ∧ e.ip = 0 ∧ e.iq = [] ∧ e.oq = [] ∧
        e.st = .running ∧ e.fc = .none ∧ e.fi = 0 ∧ e.Ok cfg)

/-- `read()` removes and returns the head of `OQ`, or signals that there is no value, and changes nothing else
(46_host-interface.md R99). -/
def Obligations.HostReadTakesTheHead : Prop :=
  ∀ (fuel : Nat) (s : State), s.pst ≠ .running →
    (s.eng.oq = [] → request fuel .read s = some (.value none, s)) ∧
    (∀ v q, s.eng.oq = v :: q →
      request fuel .read s = some (.value (some v), { s with eng := { s.eng with oq := q } }))

/-- `write` appends to `IQ` and changes nothing else; into a full finite `IQ` it is refused and changes nothing (46_host-interface.md
section 2; the refusal by the spec's decision D17). -/
def Obligations.HostWriteAppends : Prop :=
  ∀ (fuel : Nat) (s : State) (v : Word), s.pst ≠ .running →
    ((∀ n, s.cfg.iqDepth = some n → s.eng.iq.length < n) →
      request fuel (.write v) s = some (.done, { s with eng := { s.eng with iq := s.eng.iq ++ [v] } })) ∧
    (∀ n, s.cfg.iqDepth = some n → s.eng.iq.length = n →
      request fuel (.write v) s = some (.refused .inputQueueFull, s))

/-- `peek_memory` returns the word and changes nothing; `poke_memory` replaces it and no other; outside `0 .. L-1` both
are refused and the Engine is not faulted (the spec's decision D18 of 92_eei_decisions.md). -/
def Obligations.PeekAndPoke : Prop :=
  ∀ (fuel : Nat) (s : State) (a : Nat) (v : Word), s.pst ≠ .running →
    (∀ w, s.eng.mem.read a = some w → request fuel (.peek a) s = some (.word w, s)) ∧
    (s.eng.mem.len ≤ a → request fuel (.peek a) s = some (.refused .addressOutOfBounds, s) ∧
      request fuel (.poke a v) s = some (.refused .addressOutOfBounds, s)) ∧
    (a < s.eng.mem.len → ∃ t : State, request fuel (.poke a v) s = some (.done, t) ∧ StoredOne s t a v 0)

/-- Among the host's operations on an Engine only `load` and `execute` change `ST`, `FC`, `FI` or `IP` (the spec's decision
D19 of 92_eei_decisions.md). -/
def Obligations.HostOperationsKeepStatus : Prop :=
  ∀ (fuel : Nat) (q : HostRequest) (s t : State) (r : HostResponse),
    (q = .read ∨ (∃ v, q = .write v) ∨ (∃ a, q = .peek a) ∨ ∃ a v, q = .poke a v) →
    request fuel q s = some (r, t) →
    t.eng.st = s.eng.st ∧ t.eng.fc = s.eng.fc ∧ t.eng.fi = s.eng.fi ∧ t.eng.ip = s.eng.ip

/-- A clone has every field of its original, and the two evolve separately: nothing the host then does with the original
reaches the clone, and once the host has turned to the clone, which it always can, nothing it does with the clone reaches
the original (46_host-interface.md R103; 10_state.md R29; how the host turns to one of its Engines is the model's choice,
log 17). -/
def Obligations.CloneIsIndependent : Prop :=
  ∀ (fuel : Nat) (s t : State) (r : HostResponse), s.pst ≠ .running → request fuel .clone s = some (r, t) →
    (t.eng = s.eng ∧ t.after.head? = some s.eng ∧
      ∀ (q : HostRequest) (u : State) (r' : HostResponse), OnOneEngine q → request fuel q t = some (r', u) →
        u.after.head? = some s.eng) ∧
    ∃ c : State, request fuel (.select (s.cur + 1)) t = some (.done, c) ∧ c.eng = s.eng ∧ c.stages = t.stages ∧
      ∀ (q : HostRequest) (u : State) (r' : HostResponse), OnOneEngine q → request fuel q c = some (r', u) →
        u.before.getLast? = some s.eng

/-! ### The Orchestrator -/

/-- Set-up: every stage is the shared image loaded, with its phase as first input, stage 0 also with the initial signal;
`CUR = 0`, `PST` Running, `RESULT` NoResult (47_orchestrator.md R108). -/
def Obligations.SetupStartsEveryStage : Prop :=
  ∀ (cfg : Config) (image : List Word) (p : Word) (ps : List Word) (signal : Word) (e : Engine),
    cfg.iqDepth = none → Engine.load cfg image = .ok e →
    ∃ s : State, setup cfg image (p :: ps) signal = .ok s ∧
      s.stages = { e with iq := [p, signal] } :: ps.map (fun q => { e with iq := [q] }) ∧
      (∀ x ∈ s.stages, x.mem = Memory.ofImage image ∧ x.oq = [] ∧ x.st = .running ∧ x.ip = 0) ∧
      s.cur = 0 ∧ s.numStages = 1 + ps.length ∧ s.pst = .running ∧ s.result = none ∧ s.cfg = cfg

/-- A round after `execute()` returned Blocked, or Halted in a stage that is not the final one: every value of the
current stage's `OQ` goes to the tail of the next stage's `IQ`, in order, the current stage's `OQ` is empty, `CUR` is the
next stage in ring order, and nothing else changes. One stage alone relays to itself (47_orchestrator.md R109, R110). -/
def Obligations.RelayMovesEveryValueInOrder : Prop :=
  ∀ s : State, s.cfg.iqDepth = none →
    (s.eng.st = .blocked ∨ (s.eng.st = .halted ∧ s.cur + 1 < s.numStages)) →
    ∃ t : State, s.afterStep = .next t ∧ t.cur = (s.cur + 1) % s.numStages ∧ t.numStages = s.numStages ∧
      t = { s with before := t.before, eng := t.eng, after := t.after } ∧
      ∀ j : Nat, t.stages[j]? = s.stages[j]?.map (fun e =>
        { e with
          oq := if j = s.cur then [] else e.oq
          iq := if j = (s.cur + 1) % s.numStages then e.iq ++ s.eng.oq else e.iq })

/-- When `execute()` of the final stage returns Halted, the run is done before any relay of that round, with the last
value of its `OQ` as the result, or NoResult; the run returns that state, and one that is done takes no further step
(47_orchestrator.md R109; NoResult by the spec's decision D22; that the round ends in the step in which `execute()` returns
is log 6, and that a step after the run changes nothing is log 10). -/
def Obligations.FinalHaltEndsTheRun : Prop :=
  (∀ s : State, s.eng.st = .halted → s.cur + 1 = s.numStages →
    s.afterStep = .next { s with pst := .done, result := s.eng.oq.getLast? }) ∧
  (∀ s u : State, s.pst = .running → executeStep s = .next u → u.eng.st = .halted → u.cur + 1 = u.numStages →
    ∀ fuel, runRing (fuel + 1) s = some (.next { u with pst := .done, result := u.eng.oq.getLast? })) ∧
  (∀ t : State, t.pst = .done → step t = .next t)

/-- A fault in any stage aborts the run: stage, `FC` and `FI` are recorded and nothing is relayed; the run returns that
state, and takes no further step (47_orchestrator.md, the fault check; what is recorded by the spec's decision D25; log 6 and
log 10 as above). -/
def Obligations.FaultAbortsTheRun : Prop :=
  (∀ s : State, s.eng.st = .faulted →
    s.afterStep =
      .next { s with pst := .aborted, abortStage := s.cur, abortFc := s.eng.fc, abortFi := s.eng.fi }) ∧
  (∀ s u : State, s.pst = .running → executeStep s = .next u → u.eng.st = .faulted →
    ∀ fuel, runRing (fuel + 1) s = some (.next
      { u with pst := .aborted, abortStage := u.cur, abortFc := u.eng.fc, abortFi := u.eng.fi })) ∧
  (∀ t : State, t.pst = .aborted → step t = .next t)

/-- A stage other than the final one that has halted stays in the ring: its round leaves every stage as it is, once its
`OQ` is empty, and only moves on (47_orchestrator.md R109, R110; that its round is one step is log 6). -/
def Obligations.HaltedStageStaysInTheRing : Prop :=
  ∀ s : State, s.pst = .running → s.eng.st = .halted → s.eng.oq = [] → s.cur + 1 < s.numStages →
    ∃ t : State, step s = .next t ∧ t.stages = s.stages ∧ t.cur = s.cur + 1 ∧ t.pst = .running

/-- No state is shared: a step changes no Engine but the current one, except that the next stage's `IQ` may have gained
values in a run of the ring (10_state.md R29; 20_memory.md R42; what one step of the machine is, log 2 and
log 6). -/
def Obligations.OtherEnginesOnlyGainInput : Prop :=
  ∀ (s t : State) (j : Nat), step s = .next t → j ≠ s.cur →
    (s.pst ≠ .running ∨ j ≠ (s.cur + 1) % s.numStages → t.stages[j]? = s.stages[j]?) ∧
    (∃ vs : List Word, t.stages[j]? = s.stages[j]?.map (fun e => { e with iq := e.iq ++ vs }))

/-- A ring in which no stage can progress stays so: its step always answers a next state, which has the same stages and
can progress no more than before, with the next stage of the ring as the current one. So its rounds repeat for ever and
the run never ends in a final state (47_orchestrator.md; the spec's decision D23; that a round of such a
ring is one step is log 6). -/
def Obligations.DeadlockedRingHangs : Prop :=
  ∀ s : State, Deadlocked s →
    (∃ t : State, step s = .next t ∧ t.stages = s.stages ∧ t.cur = (s.cur + 1) % s.numStages ∧ Deadlocked t) ∧
    RingHangs s

/-! ### Codes and text -/

/-- The codes of `ST` and `FC` and their values at reset (the spec's decision D14 of 92_eei_decisions.md). -/
def Obligations.StateAndFaultCodes : Prop :=
  [ExecState.running, .blocked, .halted, .faulted].map ExecState.code = [0, 1, 2, 3] ∧
  [FaultCode.none, .unknownOpcode, .outOfBounds, .missingDestination, .invalidMode, .queueOverflow].map FaultCode.code =
    [0, 1, 2, 3, 4, 5] ∧
  State.reset.eng.st.code = 0 ∧ State.reset.eng.fc.code = 0

/-- A program text is split at every comma, each part read by itself: a text without a comma is one token, and its image
is the word that token reads as, or empty where the token is skipped (the spec's decision D27 of 92_eei_decisions.md). -/
def Obligations.ProgramTextSplitsAtCommas : Prop :=
  (∀ (a b : List Char), imageOfText (a ++ ',' :: b) = imageOfText a ++ imageOfText b) ∧
  (∀ text : List Char, ',' ∉ text → imageOfText text = (wordOfToken text).toList)

/-- The tokens that are read are exactly those that match `[+-]?[0-9]+` once the white space around them is taken off, and
whose value is in the range of a word: they are read as that word, leading zeros and the token 0 included, and every other
token is skipped (the spec's decision D27 of 92_eei_decisions.md). -/
def Obligations.DecimalTokensAreRead : Prop :=
  (∀ (n zeros : Nat) (l r : List Char), 0 < n ∨ 0 < zeros → l.all isBlank = true → r.all isBlank = true →
    (n < 2 ^ 63 →
      wordOfToken (l ++ paddedChars zeros n ++ r) = some (BitVec.ofInt 64 n) ∧
      wordOfToken (l ++ '+' :: paddedChars zeros n ++ r) = some (BitVec.ofInt 64 n)) ∧
    (2 ^ 63 ≤ n →
      wordOfToken (l ++ paddedChars zeros n ++ r) = none ∧ wordOfToken (l ++ '+' :: paddedChars zeros n ++ r) = none) ∧
    (n ≤ 2 ^ 63 → wordOfToken (l ++ '-' :: paddedChars zeros n ++ r) = some (BitVec.ofInt 64 (-n))) ∧
    (2 ^ 63 < n → wordOfToken (l ++ '-' :: paddedChars zeros n ++ r) = none)) ∧
  (∀ (cs : List Char) (w : Word), wordOfToken cs = some w →
    ∃ (l sign digits r : List Char), cs = l ++ sign ++ digits ++ r ∧ l.all isBlank = true ∧ r.all isBlank = true ∧
      (sign = [] ∨ sign = ['+'] ∨ sign = ['-']) ∧ digits ≠ [] ∧ ∀ c ∈ digits, ∃ d < 10, c = digitChar d)

/-- The assembler gives the words of the encoder: an instruction with Position and Immediate sources and a Position
destination assembles to its encoding (the spec's decision D26 of 92_eei_decisions.md). -/
def Obligations.AssemblerMatchesEncoder : Prop :=
  ∀ i : Instr, (∀ p ∈ i.params, p.mode = .position ∨ p.mode = .immediate) →
    (∀ k, opcodeDst i.opcode = some k → (i.params[k]?.map Param.mode) = some .position) →
    assemble [.instr i.opcode (i.params.map asmOperand)] = some (encode i)
end

