-- ==== Sys2Proof/Laws/Memory.lean ====
section
/-! SUPPORT. The laws of Memory: a read after a write, and that every operation keeps the canonical form. -/

namespace Sys2Proof.Machine

/-! ### Cells -/

theorem cellsGet_erase_self (a : Nat) (cs : List (Nat × Word)) : cellsGet (cellsErase a cs) a = Memory.blank := by
  induction cs with
  | nil => rfl
  | cons c cs ih =>
    obtain ⟨b, w⟩ := c
    by_cases h : b = a <;> simp [cellsErase, cellsGet, h, ih]

theorem cellsGet_erase_other {a b : Nat} (h : b ≠ a) (cs : List (Nat × Word)) :
    cellsGet (cellsErase a cs) b = cellsGet cs b := by
  induction cs with
  | nil => rfl
  | cons c cs ih =>
    obtain ⟨c, w⟩ := c
    by_cases hc : c = a
    · simp [cellsErase, cellsGet, hc, ih, Ne.symm h]
    · simp [cellsErase, cellsGet, hc, ih]

/-- No entry for an index. -/
def cellsLack (a : Nat) (cs : List (Nat × Word)) : Prop := ∀ c ∈ cs, c.1 ≠ a

theorem cellsErase_lack (a : Nat) (cs : List (Nat × Word)) : cellsLack a (cellsErase a cs) := by
  induction cs with
  | nil => simp [cellsErase, cellsLack]
  | cons c cs ih =>
    obtain ⟨b, w⟩ := c
    by_cases h : b = a
    · simpa [cellsErase, h] using ih
    · simpa [cellsErase, cellsLack, h] using ih

theorem cellsGet_insert_self (a : Nat) (v : Word) {cs : List (Nat × Word)} (h : cellsLack a cs) :
    cellsGet (cellsInsert a v cs) a = v := by
  induction cs with
  | nil => simp [cellsInsert, cellsGet]
  | cons c cs ih =>
    obtain ⟨b, w⟩ := c
    simp only [cellsLack, List.mem_cons, forall_eq_or_imp] at h
    by_cases hb : a < b
    · simp [cellsInsert, cellsGet, hb]
    · simp [cellsInsert, cellsGet, hb, h.1, ih h.2]

theorem cellsGet_insert_other {a b : Nat} (h : b ≠ a) (v : Word) (cs : List (Nat × Word)) :
    cellsGet (cellsInsert a v cs) b = cellsGet cs b := by
  induction cs with
  | nil => simp [cellsInsert, cellsGet, Ne.symm h]
  | cons c cs ih =>
    obtain ⟨c, w⟩ := c
    by_cases hc : a < c
    · simp [cellsInsert, cellsGet, hc, Ne.symm h]
    · simp [cellsInsert, cellsGet, hc, ih]

theorem cellsGet_set_self (a : Nat) (v : Word) (cs : List (Nat × Word)) : cellsGet (cellsSet a v cs) a = v := by
  by_cases h : v = Memory.blank
  · simp [cellsSet, h, cellsGet_erase_self]
  · simp [cellsSet, h, cellsGet_insert_self a v (cellsErase_lack a cs)]

theorem cellsGet_set_other {a b : Nat} (h : b ≠ a) (v : Word) (cs : List (Nat × Word)) :
    cellsGet (cellsSet a v cs) b = cellsGet cs b := by
  by_cases hv : v = Memory.blank
  · simp [cellsSet, hv, cellsGet_erase_other h]
  · simp [cellsSet, hv, cellsGet_insert_other h, cellsGet_erase_other h]

/-! ### Reads and writes -/

theorem Memory.inRange_iff (m : Memory) (a : Int) : m.inRange a = true ↔ 0 ≤ a ∧ a < (m.len : Int) := by
  simp [Memory.inRange]

theorem Memory.read_of_inRange {m : Memory} {a : Int} (h : m.inRange a = true) :
    m.read a = some (cellsGet m.cells a.toNat) := by
  simp [Memory.read, h]

theorem Memory.read_eq_none_iff (m : Memory) (a : Int) : m.read a = none ↔ m.inRange a = false := by
  cases h : m.inRange a <;> simp [Memory.read, h]

theorem Memory.read_isSome {m : Memory} {a : Int} {w : Word} (h : m.read a = some w) : m.inRange a = true := by
  cases hr : m.inRange a
  · simp [Memory.read, hr] at h
  · rfl

theorem Memory.write_eq_some {m m' : Memory} {a : Int} {v : Word} (h : m.write a v = some m') :
    m.inRange a = true ∧ m' = { m with cells := cellsSet a.toNat v m.cells } := by
  cases hr : m.inRange a
  · simp [Memory.write, hr] at h
  · simp only [Memory.write, hr, if_true, Option.some.injEq] at h; exact ⟨rfl, h.symm⟩

theorem Memory.write_of_inRange {m : Memory} {a : Int} (h : m.inRange a = true) (v : Word) :
    m.write a v = some { m with cells := cellsSet a.toNat v m.cells } := by
  simp [Memory.write, h]

@[simp] theorem Memory.write_len {m m' : Memory} {a : Int} {v : Word} (h : m.write a v = some m') :
    m'.len = m.len := by
  rw [(Memory.write_eq_some h).2]

theorem Memory.write_inRange {m m' : Memory} {a : Int} {v : Word} (h : m.write a v = some m') (b : Int) :
    m'.inRange b = m.inRange b := by
  simp [Memory.inRange, Memory.write_len h]

/-- A read after a write to the same index gives the word written. -/
theorem Memory.read_write_self {m m' : Memory} {a : Int} {v : Word} (h : m.write a v = some m') :
    m'.read a = some v := by
  have hr := (Memory.write_eq_some h).1
  rw [Memory.read_of_inRange ((Memory.write_inRange h a).trans hr), (Memory.write_eq_some h).2]
  simp [cellsGet_set_self]

/-- A write leaves every other index alone. -/
theorem Memory.read_write_other {m m' : Memory} {a b : Int} {v : Word} (h : m.write a v = some m') (hb : b ≠ a) :
    m'.read b = m.read b := by
  have hr := (Memory.inRange_iff m a).1 (Memory.write_eq_some h).1
  by_cases hbr : m.inRange b = true
  · rw [Memory.read_of_inRange ((Memory.write_inRange h b).trans hbr), Memory.read_of_inRange hbr,
      (Memory.write_eq_some h).2]
    have := (Memory.inRange_iff m b).1 hbr
    simp [cellsGet_set_other (a := a.toNat) (b := b.toNat) (by omega)]
  · rw [(Memory.read_eq_none_iff m b).2 (by simpa using hbr),
      (Memory.read_eq_none_iff m' b).2 (by simpa [Memory.write_inRange h b] using hbr)]

/-! ### The canonical form -/

theorem cellsWf_lower {len lo lo' : Nat} {cs : List (Nat × Word)} (hl : lo' ≤ lo) (h : cellsWf len lo cs = true) :
    cellsWf len lo' cs = true := by
  cases cs with
  | nil => rfl
  | cons c cs =>
    obtain ⟨b, w⟩ := c
    simp only [cellsWf, Bool.and_eq_true, decide_eq_true_eq] at h ⊢
    exact ⟨⟨⟨by omega, h.1.1.2⟩, h.1.2⟩, h.2⟩

theorem cellsWf_erase (len a : Nat) : ∀ (lo : Nat) (cs : List (Nat × Word)), cellsWf len lo cs = true →
    cellsWf len lo (cellsErase a cs) = true := by
  intro lo cs
  induction cs generalizing lo with
  | nil => simp [cellsErase]
  | cons c cs ih =>
    obtain ⟨b, w⟩ := c
    intro h
    simp only [cellsWf, Bool.and_eq_true, decide_eq_true_eq] at h
    by_cases hb : b = a
    · simp only [cellsErase, hb, if_true]
      exact cellsWf_lower (by omega) (ih (b + 1) h.2)
    · simp only [cellsErase, hb, if_false, cellsWf, Bool.and_eq_true, decide_eq_true_eq]
      exact ⟨h.1, ih (b + 1) h.2⟩

theorem cellsWf_insert (len a : Nat) (v : Word) (ha : a < len) (hv : v ≠ Memory.blank) :
    ∀ (lo : Nat) (cs : List (Nat × Word)), lo ≤ a → cellsLack a cs → cellsWf len lo cs = true →
      cellsWf len lo (cellsInsert a v cs) = true := by
  intro lo cs
  induction cs generalizing lo with
  | nil => intro hlo _ _; simp [cellsInsert, cellsWf, hlo, ha, hv]
  | cons c cs ih =>
    obtain ⟨b, w⟩ := c
    intro hlo hl h
    simp only [cellsLack, List.mem_cons, forall_eq_or_imp] at hl
    simp only [cellsWf, Bool.and_eq_true, decide_eq_true_eq] at h
    by_cases hb : a < b
    · simp only [cellsInsert, hb, if_true, cellsWf, Bool.and_eq_true, decide_eq_true_eq]
      exact ⟨⟨⟨hlo, ha⟩, hv⟩, ⟨⟨by omega, h.1.1.2⟩, h.1.2⟩, h.2⟩
    · simp only [cellsInsert, hb, if_false, cellsWf, Bool.and_eq_true, decide_eq_true_eq]
      exact ⟨h.1, ih (b + 1) (by have := hl.1; omega) hl.2 h.2⟩

theorem cellsWf_set (len a : Nat) (v : Word) (ha : a < len) (cs : List (Nat × Word))
    (h : cellsWf len 0 cs = true) : cellsWf len 0 (cellsSet a v cs) = true := by
  by_cases hv : v = Memory.blank
  · simpa [cellsSet, hv] using cellsWf_erase len a 0 cs h
  · simpa [cellsSet, hv] using
      cellsWf_insert len a v ha hv 0 _ (Nat.zero_le a) (cellsErase_lack a cs) (cellsWf_erase len a 0 cs h)

/-- A write keeps the canonical form. -/
theorem Memory.write_wf {m m' : Memory} {a : Int} {v : Word} (h : m.write a v = some m') (hm : m.wf = true) :
    m'.wf = true := by
  obtain ⟨hr, rfl⟩ := Memory.write_eq_some h
  have := (Memory.inRange_iff m a).1 hr
  exact cellsWf_set m.len a.toNat v (by omega) m.cells hm

theorem cellsWf_ofImage (ws : List Word) : ∀ (a len : Nat), a + ws.length ≤ len →
    cellsWf len a (cellsOfImage a ws) = true := by
  induction ws with
  | nil => intro a len _; rfl
  | cons w ws ih =>
    intro a len h
    simp only [List.length_cons] at h
    have := ih (a + 1) len (by omega)
    by_cases hw : w = Memory.blank
    · simpa [cellsOfImage, hw] using cellsWf_lower (Nat.le_succ a) this
    · simp only [cellsOfImage, hw, if_false, cellsWf, Bool.and_eq_true, decide_eq_true_eq]
      exact ⟨⟨⟨le_refl a, by omega⟩, by simpa using hw⟩, this⟩

/-- The Memory that `load` builds is in canonical form. -/
theorem Memory.ofImage_wf (image : List Word) : (Memory.ofImage image).wf = true :=
  cellsWf_ofImage image 0 image.length (by omega)

@[simp] theorem Memory.ofImage_len (image : List Word) : (Memory.ofImage image).len = image.length := rfl

theorem cellsGet_ofImage (ws : List Word) : ∀ (a b : Nat),
    cellsGet (cellsOfImage a ws) b = if a ≤ b then ws.getD (b - a) Memory.blank else Memory.blank := by
  induction ws with
  | nil => intro a b; simp [cellsOfImage, cellsGet]
  | cons w ws ih =>
    intro a b
    rcases Nat.lt_trichotomy b a with h | h | h
    · have h1 : ¬ a ≤ b := by omega
      have h2 : ¬ a + 1 ≤ b := by omega
      have h3 : ¬ a = b := by omega
      by_cases hw : w = Memory.blank <;> simp [cellsOfImage, cellsGet, ih, hw, h1, h2, h3]
    · subst h
      by_cases hw : w = Memory.blank <;> simp [cellsOfImage, cellsGet, ih, hw]
    · have h1 : a ≤ b := by omega
      have h2 : a + 1 ≤ b := by omega
      have h3 : ¬ a = b := by omega
      have h4 : b - a = (b - (a + 1)) + 1 := by omega
      by_cases hw : w = Memory.blank <;> simp [cellsOfImage, cellsGet, ih, hw, h1, h2, h3, h4]

/-- After `load`, every index holds the word of the image. -/
theorem Memory.read_ofImage (image : List Word) (a : Nat) : (Memory.ofImage image).read a = image[a]? := by
  by_cases h : a < image.length
  · rw [Memory.read_of_inRange ((Memory.inRange_iff _ _).2 ⟨by omega, by simpa using h⟩)]
    simp [Memory.ofImage, cellsGet_ofImage, h]
  · rw [(Memory.read_eq_none_iff _ _).2 (by simp [Memory.inRange]; omega)]
    simp only [not_lt] at h
    simp [h]

/-- A longer Memory keeps the canonical form. -/
theorem Memory.extend_wf {m : Memory} (n : Nat) (h : m.wf = true) : (m.extend n).wf = true := by
  have grow : ∀ (len len' : Nat), len ≤ len' → ∀ (cs : List (Nat × Word)) (lo : Nat), cellsWf len lo cs = true →
      cellsWf len' lo cs = true := by
    intro len len' hl cs
    induction cs with
    | nil => simp [cellsWf]
    | cons c cs ih =>
      obtain ⟨b, w⟩ := c
      intro lo h
      simp only [cellsWf, Bool.and_eq_true, decide_eq_true_eq] at h ⊢
      exact ⟨⟨⟨h.1.1.1, by omega⟩, h.1.2⟩, ih _ h.2⟩
  exact grow m.len _ (Nat.le_max_left _ _) m.cells 0 h

@[simp] theorem Memory.place_len (ws : List Word) : ∀ (m : Memory) (a : Nat), (m.place a ws).len = m.len := by
  induction ws with
  | nil => intro m a; rfl
  | cons w ws ih => intro m a; simp [Memory.place, ih]

/-- Words placed inside a Memory keep the canonical form. -/
theorem Memory.place_wf (ws : List Word) : ∀ (m : Memory) (a : Nat), a + ws.length ≤ m.len → m.wf = true →
    (m.place a ws).wf = true := by
  induction ws with
  | nil => intro m a _ h; exact h
  | cons w ws ih =>
    intro m a hl h
    simp only [List.length_cons] at hl
    exact ih _ (a + 1) (by simpa [Nat.add_comm, Nat.add_left_comm, Nat.add_assoc] using hl)
      (cellsWf_set m.len a w (by omega) m.cells h)

/-- The Memory at reset is in canonical form. -/
theorem reset_mem_wf : State.reset.eng.mem.wf = true := rfl

/-- The words from an index on are the words read there. -/
theorem Memory.wordsFrom_getElem? (m : Memory) : ∀ (n a k : Nat),
    (m.wordsFrom a n)[k]? = if k < n then m.read ((a + k : Nat) : Int) else none := by
  intro n
  induction n with
  | zero => intro a k; simp [Memory.wordsFrom]
  | succ n ih =>
    intro a k
    by_cases h : a < m.len
    · have hr : m.inRange (a : Int) = true := (Memory.inRange_iff _ _).2 ⟨by omega, by exact_mod_cast h⟩
      cases k with
      | zero => simp [Memory.wordsFrom, h, Memory.read_of_inRange hr]
      | succ k => simp [Memory.wordsFrom, h, ih, Nat.add_assoc, Nat.add_comm 1 k]
    · have : m.read ((a + k : Nat) : Int) = none :=
        (Memory.read_eq_none_iff _ _).2 (by simp [Memory.inRange]; omega)
      simp [Memory.wordsFrom, h]
      intro _; exact_mod_cast this.symm

end Sys2Proof.Machine
end

