-- ==== Sys2Proof/Laws/State.lean ====
section
/-! SUPPORT. One lemma per field per update of the state, so that no proof unfolds a record update. -/

namespace Sys2Proof.Machine

variable (s : State) (e : Engine) (f : FaultInfo) (n : Nat)

@[simp] theorem State.withEngine_cfg : (s.withEngine e).cfg = s.cfg := rfl
@[simp] theorem State.withEngine_before : (s.withEngine e).before = s.before := rfl
@[simp] theorem State.withEngine_eng : (s.withEngine e).eng = e := rfl
@[simp] theorem State.withEngine_after : (s.withEngine e).after = s.after := rfl
@[simp] theorem State.withEngine_pst : (s.withEngine e).pst = s.pst := rfl
@[simp] theorem State.withEngine_result : (s.withEngine e).result = s.result := rfl
@[simp] theorem State.withEngine_abortStage : (s.withEngine e).abortStage = s.abortStage := rfl
@[simp] theorem State.withEngine_abortFc : (s.withEngine e).abortFc = s.abortFc := rfl
@[simp] theorem State.withEngine_abortFi : (s.withEngine e).abortFi = s.abortFi := rfl
@[simp] theorem State.withEngine_cur : (s.withEngine e).cur = s.cur := rfl
@[simp] theorem State.withEngine_numStages : (s.withEngine e).numStages = s.numStages := rfl
@[simp] theorem State.withEngine_withEngine (e' : Engine) : (s.withEngine e).withEngine e' = s.withEngine e' := rfl
@[simp] theorem State.withEngine_self : s.withEngine s.eng = s := rfl
theorem State.takeFault_eq : s.takeFault f = s.withEngine (s.eng.takeFault f) := rfl

@[simp] theorem Engine.takeFault_mem : (e.takeFault f).mem = e.mem := rfl
@[simp] theorem Engine.takeFault_ip : (e.takeFault f).ip = e.ip := rfl
@[simp] theorem Engine.takeFault_iq : (e.takeFault f).iq = e.iq := rfl
@[simp] theorem Engine.takeFault_oq : (e.takeFault f).oq = e.oq := rfl
@[simp] theorem Engine.takeFault_st : (e.takeFault f).st = .faulted := rfl
@[simp] theorem Engine.takeFault_fc : (e.takeFault f).fc = f.code := rfl
@[simp] theorem Engine.takeFault_fi : (e.takeFault f).fi = f.info := rfl

@[simp] theorem Engine.advance_mem : (e.advance n).mem = e.mem := rfl
@[simp] theorem Engine.advance_ip : (e.advance n).ip = e.ip + n := rfl
@[simp] theorem Engine.advance_iq : (e.advance n).iq = e.iq := rfl
@[simp] theorem Engine.advance_oq : (e.advance n).oq = e.oq := rfl
@[simp] theorem Engine.advance_st : (e.advance n).st = e.st := rfl
@[simp] theorem Engine.advance_fc : (e.advance n).fc = e.fc := rfl
@[simp] theorem Engine.advance_fi : (e.advance n).fi = e.fi := rfl

@[simp] theorem Engine.begin_mem : e.begin.mem = e.mem := rfl
@[simp] theorem Engine.begin_ip : e.begin.ip = e.ip := rfl
@[simp] theorem Engine.begin_iq : e.begin.iq = e.iq := rfl
@[simp] theorem Engine.begin_oq : e.begin.oq = e.oq := rfl
@[simp] theorem Engine.begin_st : e.begin.st = .running := rfl
@[simp] theorem Engine.begin_fc : e.begin.fc = e.fc := rfl
@[simp] theorem Engine.begin_fi : e.begin.fi = e.fi := rfl
@[simp] theorem Engine.begin_window : e.begin.window = e.window := rfl
@[simp] theorem Engine.begin_fetch : e.begin.fetch = e.fetch := rfl

/-- From Running, the head of `execute()` changes nothing. -/
theorem Engine.begin_of_running (h : e.st = .running) : e.begin = e := by
  cases e; simp_all [Engine.begin]

@[simp] theorem Engine.drained_mem : e.drained.mem = e.mem := rfl
@[simp] theorem Engine.drained_ip : e.drained.ip = e.ip := rfl
@[simp] theorem Engine.drained_iq : e.drained.iq = e.iq := rfl
@[simp] theorem Engine.drained_oq : e.drained.oq = [] := rfl
@[simp] theorem Engine.drained_st : e.drained.st = e.st := rfl
@[simp] theorem Engine.drained_fc : e.drained.fc = e.fc := rfl
@[simp] theorem Engine.drained_fi : e.drained.fi = e.fi := rfl

@[simp] theorem State.finish_cfg : s.finish.cfg = s.cfg := rfl
@[simp] theorem State.finish_before : s.finish.before = s.before := rfl
@[simp] theorem State.finish_eng : s.finish.eng = s.eng := rfl
@[simp] theorem State.finish_after : s.finish.after = s.after := rfl
@[simp] theorem State.finish_pst : s.finish.pst = .done := rfl
@[simp] theorem State.finish_result : s.finish.result = queueTail s.eng.oq := rfl

@[simp] theorem State.abort_cfg : s.abort.cfg = s.cfg := rfl
@[simp] theorem State.abort_before : s.abort.before = s.before := rfl
@[simp] theorem State.abort_eng : s.abort.eng = s.eng := rfl
@[simp] theorem State.abort_after : s.abort.after = s.after := rfl
@[simp] theorem State.abort_pst : s.abort.pst = .aborted := rfl
@[simp] theorem State.abort_result : s.abort.result = s.result := rfl
@[simp] theorem State.abort_abortStage : s.abort.abortStage = s.cur := rfl
@[simp] theorem State.abort_abortFc : s.abort.abortFc = s.eng.fc := rfl
@[simp] theorem State.abort_abortFi : s.abort.abortFi = s.eng.fi := rfl

/-- The current stage is one of the stages. -/
theorem State.eng_mem_stages : s.eng ∈ s.stages := by simp [State.stages]

/-- Replacing the current Engine replaces one stage. -/
theorem State.withEngine_stages : (s.withEngine e).stages = s.before ++ e :: s.after := rfl

end Sys2Proof.Machine
end

