-- ==== Sys2Proof/Laws/Ops.lean ====
section
/-! SUPPORT. One lemma for each shared operation that says once everything it can do; later proofs cite these and do
not unfold the operation. -/

namespace Sys2Proof.Machine

@[simp] theorem outOfBoundsAt_toInt (w : Word) : outOfBoundsAt w.toInt = ⟨.outOfBounds, w⟩ := by
  simp [outOfBoundsAt]

/-! ### Operands -/

theorem memRead_ok_iff {m : Memory} {a : Int} {w : Word} : memRead m a = .ok w ↔ m.read a = some w := by
  unfold memRead; split <;> simp_all

theorem memRead_error_iff {m : Memory} {a : Int} {f : FaultInfo} :
    memRead m a = .error f ↔ m.read a = none ∧ f = outOfBoundsAt a := by
  unfold memRead
  cases m.read a with
  | none => exact ⟨fun h => ⟨rfl, (Except.error.inj h).symm⟩, fun h => by rw [h.2]⟩
  | some w => simp

theorem read_none_iff_range {m : Memory} {a : Int} : m.read a = none ↔ ¬ (0 ≤ a ∧ a < (m.len : Int)) := by
  rw [Memory.read_eq_none_iff, ← Memory.inRange_iff]; simp

theorem val_ok_iff {m : Memory} {k : Nat} {p : Param} {v : Word} : val m k p = .ok v ↔ SourceReads m p v := by
  obtain ⟨mode, w⟩ := p
  cases mode <;> simp [val, SourceReads, memRead_ok_iff]

theorem val_error_iff {m : Memory} {k : Nat} {p : Param} {f : FaultInfo} :
    val m k p = .error f ↔ SourceFaults m k p f := by
  obtain ⟨mode, w⟩ := p
  cases mode <;> simp only [val, SourceFaults, memRead_error_iff, read_none_iff_range, outOfBoundsAt_toInt] <;>
    simp [eq_comm]

theorem dstAddress_ok_iff {m : Memory} {w : Word} {t : Int} :
    dstAddress m w = .ok t ↔ w.toInt = t ∧ 0 ≤ t ∧ t < (m.len : Int) := by
  unfold dstAddress
  split
  · rename_i h; rw [Memory.inRange_iff] at h; simp only [Except.ok.injEq]
    exact ⟨fun e => e ▸ ⟨rfl, h⟩, fun e => e.1⟩
  · rename_i h; rw [Memory.inRange_iff] at h
    exact ⟨fun e => by simp at e, fun e => absurd (e.1.symm ▸ e.2) h⟩

theorem dstAddress_error_iff {m : Memory} {w : Word} {f : FaultInfo} :
    dstAddress m w = .error f ↔ ¬ (0 ≤ w.toInt ∧ w.toInt < (m.len : Int)) ∧ f = ⟨.outOfBounds, w⟩ := by
  unfold dstAddress
  split
  · rename_i h; rw [Memory.inRange_iff] at h; simp [h]
  · rename_i h; rw [Memory.inRange_iff] at h; simp [eq_comm]; omega

theorem dst_ok_iff {m : Memory} {k : Nat} {p : Param} {t : Int} : dst m k p = .ok t ↔ DestReaches m p t := by
  obtain ⟨mode, w⟩ := p
  cases mode <;> simp [dst, DestReaches, dstAddress_ok_iff]

theorem dst_error_iff {m : Memory} {k : Nat} {p : Param} {f : FaultInfo} :
    dst m k p = .error f ↔ DestFaults m k p f := by
  obtain ⟨mode, w⟩ := p
  cases mode <;> simp only [dst, DestFaults, dstAddress_error_iff] <;> simp [eq_comm]

theorem resolveThree_ok_iff {m : Memory} {a b d : Param} {x y : Word} {t : Int} :
    resolveThree m a b d = .ok (x, y, t) ↔ val m 1 a = .ok x ∧ val m 2 b = .ok y ∧ dst m 3 d = .ok t := by
  unfold resolveThree
  cases val m 1 a <;> cases val m 2 b <;> cases dst m 3 d <;> simp

theorem resolveThree_error_iff {m : Memory} {a b d : Param} {f : FaultInfo} :
    resolveThree m a b d = .error f ↔
      val m 1 a = .error f ∨ (∃ x, val m 1 a = .ok x ∧ val m 2 b = .error f) ∨
      (∃ x y, val m 1 a = .ok x ∧ val m 2 b = .ok y ∧ dst m 3 d = .error f) := by
  unfold resolveThree
  cases val m 1 a <;> cases val m 2 b <;> cases dst m 3 d <;> simp

theorem resolveTwo_ok_iff {m : Memory} {a b : Param} {x y : Word} :
    resolveTwo m a b = .ok (x, y) ↔ val m 1 a = .ok x ∧ val m 2 b = .ok y := by
  unfold resolveTwo
  cases val m 1 a <;> cases val m 2 b <;> simp

theorem resolveTwo_error_iff {m : Memory} {a b : Param} {f : FaultInfo} :
    resolveTwo m a b = .error f ↔ val m 1 a = .error f ∨ (∃ x, val m 1 a = .ok x ∧ val m 2 b = .error f) := by
  unfold resolveTwo
  cases val m 1 a <;> cases val m 2 b <;> simp

/-! ### Effects -/

/-- A store of one word to an index of Memory always completes. -/
theorem Engine.store_of_range {e : Engine} {t : Int} (v : Word) (n : Nat) (h : 0 ≤ t ∧ t < (e.mem.len : Int)) :
    ∃ m, e.mem.write t v = some m ∧ e.store t v n = .ok { e with mem := m, ip := e.ip + n } := by
  refine ⟨_, Memory.write_of_inRange ((Memory.inRange_iff _ _).2 h) v, ?_⟩
  simp [Engine.store, memWrite, Memory.write_of_inRange ((Memory.inRange_iff _ _).2 h), Engine.advance]

theorem Engine.store_ok {e e' : Engine} {t : Int} {v : Word} {n : Nat} (h : e.store t v n = .ok e') :
    ∃ m, e.mem.write t v = some m ∧ e' = { e with mem := m, ip := e.ip + n } := by
  unfold Engine.store memWrite at h
  cases hw : e.mem.write t v <;> simp_all [Engine.advance, eq_comm]

theorem Engine.store_error {e : Engine} {t : Int} {v : Word} {n : Nat} {f : FaultInfo}
    (h : e.store t v n = .error f) : ¬ (0 ≤ t ∧ t < (e.mem.len : Int)) := by
  intro hr
  obtain ⟨m, -, h'⟩ := Engine.store_of_range (e := e) v n hr
  simp [h'] at h

theorem threeOperand_ok {f : Word → Word → Word} {a b d : Param} {e e' : Engine}
    (h : threeOperand f a b d e = .ok e') :
    ∃ x y t m, val e.mem 1 a = .ok x ∧ val e.mem 2 b = .ok y ∧ dst e.mem 3 d = .ok t ∧
      e.mem.write t (f x y) = some m ∧ e' = { e with mem := m, ip := e.ip + 4 } := by
  unfold threeOperand at h
  split at h
  · simp at h
  · rename_i x y t hr
    obtain ⟨m, hw, rfl⟩ := Engine.store_ok h
    obtain ⟨hx, hy, ht⟩ := resolveThree_ok_iff.1 hr
    exact ⟨x, y, t, m, hx, hy, ht, hw, rfl⟩

theorem threeOperand_of_resolved {f : Word → Word → Word} {a b d : Param} {e : Engine} {x y : Word} {t : Int}
    (hx : val e.mem 1 a = .ok x) (hy : val e.mem 2 b = .ok y) (ht : dst e.mem 3 d = .ok t) :
    ∃ m, e.mem.write t (f x y) = some m ∧ threeOperand f a b d e = .ok { e with mem := m, ip := e.ip + 4 } := by
  obtain ⟨m, hw, hs⟩ := Engine.store_of_range (e := e) (f x y) 4 (dst_ok_iff.1 ht).2.2
  exact ⟨m, hw, by simp [threeOperand, resolveThree_ok_iff.2 ⟨hx, hy, ht⟩, hs]⟩

/-- An instruction of format F3 faults exactly where its resolution does. -/
theorem threeOperand_error_iff {f : Word → Word → Word} {a b d : Param} {e : Engine} {g : FaultInfo} :
    threeOperand f a b d e = .error g ↔ resolveThree e.mem a b d = .error g := by
  unfold threeOperand
  split
  · simp_all
  · rename_i x y t hr
    obtain ⟨m, -, hs⟩ := Engine.store_of_range (e := e) (f x y) 4 (dst_ok_iff.1 (resolveThree_ok_iff.1 hr).2.2).2.2
    simp [hs, hr]

theorem Engine.jump_ok_iff {e e' : Engine} {t : Word} :
    e.jump t = .ok e' ↔ (0 ≤ t.toInt ∧ t.toInt ≤ (e.mem.len : Int)) ∧ e' = { e with ip := t.toInt.toNat } := by
  unfold Engine.jump
  split
  · rename_i h; simp; omega
  · rename_i h; simp only [Except.ok.injEq, eq_comm]; exact ⟨fun e => ⟨by omega, e⟩, fun e => e.2⟩

theorem Engine.jump_error_iff {e : Engine} {t : Word} {f : FaultInfo} :
    e.jump t = .error f ↔ ¬ (0 ≤ t.toInt ∧ t.toInt ≤ (e.mem.len : Int)) ∧ f = ⟨.outOfBounds, t⟩ := by
  unfold Engine.jump
  split
  · rename_i h; simp only [outOfBoundsAt_toInt, Except.error.injEq, eq_comm]; exact ⟨fun e => ⟨by omega, e⟩, fun e => e.2⟩
  · rename_i h; simp; omega

theorem conditionalJump_ok {c : Word → Bool} {a b : Param} {e e' : Engine} (h : conditionalJump c a b e = .ok e') :
    ∃ x t, val e.mem 1 a = .ok x ∧ val e.mem 2 b = .ok t ∧
      ((c x = true ∧ (0 ≤ t.toInt ∧ t.toInt ≤ (e.mem.len : Int)) ∧ e' = { e with ip := t.toInt.toNat }) ∨
       (c x = false ∧ e' = { e with ip := e.ip + 3 })) := by
  unfold conditionalJump at h
  split at h
  · simp at h
  · rename_i x t hr
    obtain ⟨hx, ht⟩ := resolveTwo_ok_iff.1 hr
    refine ⟨x, t, hx, ht, ?_⟩
    cases hc : c x
    · simp [hc, Engine.advance, eq_comm] at h; simp [h]
    · simp only [hc, if_true] at h; exact .inl ⟨rfl, Engine.jump_ok_iff.1 h⟩

theorem conditionalJump_of_resolved {c : Word → Bool} {a b : Param} {e : Engine} {x t : Word}
    (hx : val e.mem 1 a = .ok x) (ht : val e.mem 2 b = .ok t) :
    conditionalJump c a b e = if c x then e.jump t else .ok { e with ip := e.ip + 3 } := by
  simp [conditionalJump, resolveTwo_ok_iff.2 ⟨hx, ht⟩, Engine.advance]

theorem conditionalJump_error {c : Word → Bool} {a b : Param} {e : Engine} {f : FaultInfo}
    (h : conditionalJump c a b e = .error f) :
    resolveTwo e.mem a b = .error f ∨ ∃ x t, resolveTwo e.mem a b = .ok (x, t) ∧ c x = true ∧ f = ⟨.outOfBounds, t⟩ := by
  unfold conditionalJump at h
  split at h
  · rename_i g hr; simp only [Except.error.injEq] at h; subst h; exact .inl hr
  · rename_i x t hr
    cases hc : c x
    · simp [hc] at h
    · simp only [hc, if_true] at h; exact .inr ⟨x, t, hr, hc, (Engine.jump_error_iff.1 h).2⟩

theorem Engine.inputTo_ok {e e' : Engine} {t : Int} (h : e.inputTo t = .ok e') :
    (e.iq = [] ∧ e' = { e with st := .blocked }) ∨
    (∃ v q m, e.iq = v :: q ∧ e.mem.write t v = some m ∧ e' = { e with mem := m, ip := e.ip + 2, iq := q }) := by
  unfold Engine.inputTo at h
  cases hq : e.iq with
  | nil => simp [hq, dequeue, eq_comm] at h; simp [h]
  | cons v q =>
    simp only [hq, dequeue] at h
    obtain ⟨m, hw, rfl⟩ := Engine.store_ok h
    exact .inr ⟨v, q, m, rfl, hw, rfl⟩

theorem Engine.inputTo_error {e : Engine} {t : Int} {f : FaultInfo} (h : e.inputTo t = .error f) :
    ¬ (0 ≤ t ∧ t < (e.mem.len : Int)) := by
  unfold Engine.inputTo at h
  cases hq : e.iq with
  | nil => simp [hq, dequeue] at h
  | cons v q =>
    simp only [hq, dequeue] at h
    exact Engine.store_error (e := { e with iq := q }) h

theorem Engine.outputOf_ok {e e' : Engine} {depth : Option Nat} {v : Word} (h : e.outputOf depth v = .ok e') :
    queueFull depth e.oq = false ∧ e' = { e with ip := e.ip + 2, oq := e.oq ++ [v] } := by
  unfold Engine.outputOf at h
  split at h
  · simp at h
  · rename_i hq; exact ⟨by simpa using hq, (Except.ok.inj h).symm⟩

theorem Engine.outputOf_error {e : Engine} {depth : Option Nat} {v : Word} {f : FaultInfo}
    (h : e.outputOf depth v = .error f) : queueFull depth e.oq = true ∧ f = ⟨.queueOverflow, v⟩ := by
  unfold Engine.outputOf at h
  split at h
  · rename_i hq; exact ⟨hq, (Except.error.inj h).symm⟩
  · simp at h

/-! ### Instructions -/

/-- What an instruction does to the current Engine, or its fault: the part of each meaning that `retire` ends. -/
def effect (i : Instr) (s : State) : Except FaultInfo Engine :=
  match i with
  | .add a b d => threeOperand aluAdd a b d s.eng
  | .multiply a b d => threeOperand aluMul a b d s.eng
  | .input d =>
    match dst s.eng.mem 1 d with
    | .error f => .error f
    | .ok t => s.eng.inputTo t
  | .output a =>
    match val s.eng.mem 1 a with
    | .error f => .error f
    | .ok v => s.eng.outputOf s.cfg.oqDepth v
  | .jumpIfTrue a t => conditionalJump wordIsTrue a t s.eng
  | .jumpIfFalse a t => conditionalJump wordIsFalse a t s.eng
  | .lessThan a b d => threeOperand aluLess a b d s.eng
  | .equals a b d => threeOperand aluEqual a b d s.eng
  | .halt => .ok { s.eng with st := .halted }

/-- Every instruction ends by retiring its effect: it changes the current Engine as a whole, or takes its fault. -/
theorem exec_eq_retire (i : Instr) (s : State) : exec i s = s.retire (effect i s) := by
  cases i <;> rfl

theorem retire_next {s t : State} {r : Except FaultInfo Engine} (h : s.retire r = .next t) :
    (∃ e, r = .ok e ∧ t = s.withEngine e) ∨ (∃ f, r = .error f ∧ t = s.takeFault f) := by
  cases r <;> simp_all [State.retire, eq_comm]

/-- No meaning stops the machine. -/
theorem exec_is_next (i : Instr) (s : State) : ∃ e, exec i s = .next (s.withEngine e) := by
  rw [exec_eq_retire]
  cases effect i s with
  | ok e => exact ⟨e, rfl⟩
  | error f => exact ⟨_, rfl⟩

/-- What an instruction that does not fault may have done to the current Engine, field by field. -/
def EngineChange (i : Instr) (s : State) (e : Engine) : Prop :=
    (e.mem = s.eng.mem ∨ ∃ t v, s.eng.mem.write t v = some e.mem) ∧
    (e.ip = s.eng.ip ∨ e.ip = s.eng.ip + i.width ∨ e.ip ≤ s.eng.mem.len) ∧
    (e.iq = s.eng.iq ∨ ∃ v, s.eng.iq = v :: e.iq) ∧
    (e.oq = s.eng.oq ∨ ∃ v, queueFull s.cfg.oqDepth s.eng.oq = false ∧ e.oq = s.eng.oq ++ [v]) ∧
    (e.st = s.eng.st ∨ e.st = .blocked ∨ e.st = .halted) ∧ e.fc = s.eng.fc ∧ e.fi = s.eng.fi

theorem effect_ok {i : Instr} {s : State} {e : Engine} (h : effect i s = .ok e) : EngineChange i s e := by
  have three : ∀ {f a b d}, threeOperand f a b d s.eng = .ok e → i.width = 4 → EngineChange i s e := by
    intro f a b d h hw
    obtain ⟨x, y, t, m, -, -, -, hm, rfl⟩ := threeOperand_ok h
    exact ⟨.inr ⟨t, _, hm⟩, .inr (.inl (by rw [hw])), .inl rfl, .inl rfl, .inl rfl, rfl, rfl⟩
  have jump : ∀ {c a b}, conditionalJump c a b s.eng = .ok e → i.width = 3 → EngineChange i s e := by
    intro c a b h hw
    obtain ⟨x, t, -, -, h⟩ := conditionalJump_ok h
    rcases h with ⟨-, hr, rfl⟩ | ⟨-, rfl⟩
    · exact ⟨.inl rfl, .inr (.inr (by simp; omega)), .inl rfl, .inl rfl, .inl rfl, rfl, rfl⟩
    · exact ⟨.inl rfl, .inr (.inl (by rw [hw])), .inl rfl, .inl rfl, .inl rfl, rfl, rfl⟩
  cases i with
  | add a b d => exact three h rfl
  | multiply a b d => exact three h rfl
  | lessThan a b d => exact three h rfl
  | equals a b d => exact three h rfl
  | jumpIfTrue a t => exact jump h rfl
  | jumpIfFalse a t => exact jump h rfl
  | halt =>
    simp only [effect, Except.ok.injEq] at h; subst h
    exact ⟨.inl rfl, .inl rfl, .inl rfl, .inl rfl, .inr (.inr rfl), rfl, rfl⟩
  | input d =>
    simp only [effect] at h
    split at h
    · simp at h
    · rcases Engine.inputTo_ok h with ⟨hq, rfl⟩ | ⟨v, q, m, hq, hm, rfl⟩
      · exact ⟨.inl rfl, .inl rfl, .inl rfl, .inl rfl, .inr (.inl rfl), rfl, rfl⟩
      · exact ⟨.inr ⟨_, _, hm⟩, .inr (.inl rfl), .inr ⟨v, hq⟩, .inl rfl, .inl rfl, rfl, rfl⟩
  | output a =>
    simp only [effect] at h
    split at h
    · simp at h
    · obtain ⟨hq, rfl⟩ := Engine.outputOf_ok h
      exact ⟨.inl rfl, .inr (.inl rfl), .inl rfl, .inr ⟨_, hq, rfl⟩, .inl rfl, rfl, rfl⟩

/-- What the fault of an instruction may record (60_exceptions.md R118). -/
def FaultRecord (s : State) (f : FaultInfo) : Prop :=
    f.code = .outOfBounds ∨
    (f.code = .invalidMode ∧ (f.info = 1 ∨ f.info = 2)) ∨
    (f.code = .missingDestination ∧ (f.info = 1 ∨ f.info = 3)) ∨
    (f.code = .queueOverflow ∧ queueFull s.cfg.oqDepth s.eng.oq = true)

theorem effect_error {i : Instr} {s : State} {f : FaultInfo} (h : effect i s = .error f) : FaultRecord s f := by
  have src : ∀ {k p}, (k = 1 ∨ k = 2) → val s.eng.mem k p = .error f → FaultRecord s f := by
    intro k p hk h
    rcases val_error_iff.1 h with ⟨-, -, rfl⟩ | ⟨-, -, rfl⟩
    · exact .inr (.inl ⟨rfl, by rcases hk with rfl | rfl <;> simp⟩)
    · exact .inl rfl
  have tgt : ∀ {k p}, (k = 1 ∨ k = 3) → dst s.eng.mem k p = .error f → FaultRecord s f := by
    intro k p hk h
    rcases dst_error_iff.1 h with ⟨-, -, rfl⟩ | ⟨-, -, rfl⟩
    · exact .inr (.inr (.inl ⟨rfl, by rcases hk with rfl | rfl <;> simp⟩))
    · exact .inl rfl
  have three : ∀ {g a b d}, threeOperand g a b d s.eng = .error f → FaultRecord s f := by
    intro g a b d h
    rcases resolveThree_error_iff.1 (threeOperand_error_iff.1 h) with h | ⟨x, -, h⟩ | ⟨x, y, -, -, h⟩
    · exact src (.inl rfl) h
    · exact src (.inr rfl) h
    · exact tgt (.inr rfl) h
  have jump : ∀ {c a b}, conditionalJump c a b s.eng = .error f → FaultRecord s f := by
    intro c a b h
    rcases conditionalJump_error h with h | ⟨x, t, -, -, rfl⟩
    · rcases resolveTwo_error_iff.1 h with h | ⟨x, -, h⟩
      · exact src (.inl rfl) h
      · exact src (.inr rfl) h
    · exact .inl rfl
  cases i with
  | add a b d => exact three h
  | multiply a b d => exact three h
  | lessThan a b d => exact three h
  | equals a b d => exact three h
  | jumpIfTrue a t => exact jump h
  | jumpIfFalse a t => exact jump h
  | halt => simp [effect] at h
  | input d =>
    simp only [effect] at h
    split at h
    · rename_i g hd; simp only [Except.error.injEq] at h; subst h; exact tgt (.inl rfl) hd
    · rename_i t hd; exact absurd (dst_ok_iff.1 hd).2.2 (Engine.inputTo_error h)
  | output a =>
    simp only [effect] at h
    split at h
    · rename_i g hd; simp only [Except.error.injEq] at h; subst h; exact src (.inl rfl) hd
    · obtain ⟨hq, rfl⟩ := Engine.outputOf_error h; exact .inr (.inr (.inr ⟨rfl, hq⟩))

/-- `Step()` changes the current Engine and nothing else, and never stops the machine. -/
theorem runInstr_is_next (s : State) : ∃ e, runInstr s = .next (s.withEngine e) := by
  unfold runInstr
  cases s.eng.fetch with
  | ok i => exact exec_is_next i s
  | error f => exact ⟨_, rfl⟩

theorem executeStep_is_next (s : State) : ∃ e, executeStep s = .next (s.withEngine e) := by
  unfold executeStep
  split
  · obtain ⟨e, h⟩ := runInstr_is_next (s.withEngine s.eng.begin); exact ⟨e, h⟩
  · obtain ⟨e, h⟩ := runInstr_is_next (s.withEngine s.eng.begin); exact ⟨e, h⟩
  · exact ⟨s.eng, rfl⟩
  · exact ⟨s.eng, rfl⟩

/-- A step of `execute()` changes the current Engine and nothing else. -/
theorem executeStep_next {s t : State} (h : executeStep s = .next t) : t = s.withEngine t.eng := by
  obtain ⟨e, he⟩ := executeStep_is_next s
  rw [h] at he; cases he; rfl

end Sys2Proof.Machine
end

