-- ==== Sys2Proof/Laws/Decode.lean ====
section
/-! SUPPORT. What the decoder can answer, and what a fetch can answer. -/

namespace Sys2Proof.Machine

/-! ### Digits -/

theorem toInt_of_nonneg {w : Word} (h : ¬ w.toInt < 0) : w.toInt = w.toNat := by
  rw [BitVec.toInt_eq_toNat_cond] at *; split at h <;> simp_all; omega

theorem Mode.digit_ofDigit (n : Nat) : (Mode.ofDigit n).digit = n := by
  unfold Mode.ofDigit; split
  · simp_all [Mode.digit]
  · split <;> simp_all [Mode.digit]

/-- A well-formed mode is the mode of its digit, so it has one name only. -/
theorem Mode.ofDigit_digit {m : Mode} (h : m.wf = true) : Mode.ofDigit m.digit = m := by
  cases m with
  | position => rfl
  | immediate => rfl
  | other d =>
    have h : 2 ≤ d ∧ d ≤ 9 := by simpa [Mode.wf] using h
    change Mode.ofDigit d = _
    unfold Mode.ofDigit; rw [if_neg (by omega), if_neg (by omega)]

theorem Mode.digit_lt {m : Mode} (h : m.wf = true) : m.digit < 10 := by
  cases m <;> simp_all [Mode.wf, Mode.digit]; omega

theorem Mode.ofDigit_wf {n : Nat} (h : n < 10) : (Mode.ofDigit n).wf = true := by
  unfold Mode.ofDigit; split
  · rfl
  · split
    · rfl
    · simp [Mode.wf]; omega

theorem Opcode.ofCode_some {n : Nat} {op : Opcode} : Opcode.ofCode n = some op ↔ n = op.code := by
  constructor
  · intro h; have := List.find?_some h; simp at this; exact this.symm
  · rintro rfl; cases op <;> rfl

/-- The opcode of an instruction word: its code is the word modulo 100 (30_encoding.md R59). -/
theorem decodeOpcode_some {ir : Word} {op : Opcode} :
    decodeOpcode ir = some op ↔ 0 ≤ ir.toInt ∧ ir.toInt % 100 = op.code := by
  unfold decodeOpcode
  split
  · simp; omega
  · rename_i h; rw [Opcode.ofCode_some, toInt_of_nonneg h]; omega

/-! ### The decoder -/

theorem needThree_ok {mk : Param → Param → Param → Instr} {ir : Word} {ps : List Word} {i : Instr}
    (h : needThree mk ir ps = .ok i) :
    ∃ p1 p2 p3 rest, ps = p1 :: p2 :: p3 :: rest ∧ i = mk ⟨modeOf ir 1, p1⟩ ⟨modeOf ir 2, p2⟩ ⟨modeOf ir 3, p3⟩ := by
  unfold needThree at h
  split at h
  · exact ⟨_, _, _, _, rfl, (Except.ok.inj h).symm⟩
  · simp at h

theorem needTwo_ok {mk : Param → Param → Instr} {ir : Word} {ps : List Word} {i : Instr}
    (h : needTwo mk ir ps = .ok i) :
    ∃ p1 p2 rest, ps = p1 :: p2 :: rest ∧ i = mk ⟨modeOf ir 1, p1⟩ ⟨modeOf ir 2, p2⟩ := by
  unfold needTwo at h
  split at h
  · exact ⟨_, _, _, rfl, (Except.ok.inj h).symm⟩
  · simp at h

theorem needOne_ok {mk : Param → Instr} {ir : Word} {ps : List Word} {i : Instr}
    (h : needOne mk ir ps = .ok i) : ∃ p1 rest, ps = p1 :: rest ∧ i = mk ⟨modeOf ir 1, p1⟩ := by
  unfold needOne at h
  split at h
  · exact ⟨_, _, rfl, (Except.ok.inj h).symm⟩
  · simp at h

/-- A missing parameter is the first one beyond the words there are. -/
theorem decodeParams_error {ir : Word} {ps : List Word} {op : Opcode} {r : DecodeError}
    (h : decodeParams ir ps op = .error r) : ps.length < op.numParams ∧ r = .missingParam (ps.length + 1) := by
  cases op <;> rcases ps with _ | ⟨p1, _ | ⟨p2, _ | ⟨p3, ps⟩⟩⟩ <;>
    simp_all [decodeParams, needThree, needTwo, needOne, Opcode.numParams]

/-- An instruction word that selects an opcode, with enough words after it, is an instruction of that opcode whose
parameters are those words under the modes of the instruction word. -/
theorem decodeParams_ok {ir : Word} {ps : List Word} {op : Opcode} {i : Instr} (h : decodeParams ir ps op = .ok i) :
    i.opcode = op ∧ i.params.length = op.numParams ∧ op.numParams ≤ ps.length ∧
    i.params.map Param.word = ps.take op.numParams ∧
    ∀ k (hk : k < i.params.length), (i.params[k]).mode = modeOf ir (k + 1) := by
  have three : ∀ {mk}, needThree mk ir ps = .ok i → (∀ a b d, (mk a b d).params = [a, b, d]) →
      i.params.length = 3 ∧ 3 ≤ ps.length ∧ i.params.map Param.word = ps.take 3 ∧
      ∀ k (hk : k < i.params.length), (i.params[k]).mode = modeOf ir (k + 1) := by
    intro mk h hp
    obtain ⟨p1, p2, p3, rest, rfl, rfl⟩ := needThree_ok h
    refine ⟨by simp [hp], by simp, by simp [hp], fun k hk => ?_⟩
    simp only [hp, List.length_cons, List.length_nil] at hk
    rcases k with _ | _ | _ | k <;> first | omega | simp [hp]
  have two : ∀ {mk}, needTwo mk ir ps = .ok i → (∀ a b, (mk a b).params = [a, b]) →
      i.params.length = 2 ∧ 2 ≤ ps.length ∧ i.params.map Param.word = ps.take 2 ∧
      ∀ k (hk : k < i.params.length), (i.params[k]).mode = modeOf ir (k + 1) := by
    intro mk h hp
    obtain ⟨p1, p2, rest, rfl, rfl⟩ := needTwo_ok h
    refine ⟨by simp [hp], by simp, by simp [hp], fun k hk => ?_⟩
    simp only [hp, List.length_cons, List.length_nil] at hk
    rcases k with _ | _ | k <;> first | omega | simp [hp]
  have one : ∀ {mk}, needOne mk ir ps = .ok i → (∀ a, (mk a).params = [a]) →
      i.params.length = 1 ∧ 1 ≤ ps.length ∧ i.params.map Param.word = ps.take 1 ∧
      ∀ k (hk : k < i.params.length), (i.params[k]).mode = modeOf ir (k + 1) := by
    intro mk h hp
    obtain ⟨p1, rest, rfl, rfl⟩ := needOne_ok h
    refine ⟨by simp [hp], by simp, by simp [hp], fun k hk => ?_⟩
    simp only [hp, List.length_cons, List.length_nil] at hk
    rcases k with _ | k <;> first | omega | simp [hp]
  have head : i.opcode = op := by
    cases op
    case halt => simp only [decodeParams, Except.ok.injEq] at h; subst h; rfl
    case add => obtain ⟨_, _, _, _, _, rfl⟩ := needThree_ok h; rfl
    case multiply => obtain ⟨_, _, _, _, _, rfl⟩ := needThree_ok h; rfl
    case lessThan => obtain ⟨_, _, _, _, _, rfl⟩ := needThree_ok h; rfl
    case equals => obtain ⟨_, _, _, _, _, rfl⟩ := needThree_ok h; rfl
    case jumpIfTrue => obtain ⟨_, _, _, _, rfl⟩ := needTwo_ok h; rfl
    case jumpIfFalse => obtain ⟨_, _, _, _, rfl⟩ := needTwo_ok h; rfl
    case input => obtain ⟨_, _, _, rfl⟩ := needOne_ok h; rfl
    case output => obtain ⟨_, _, _, rfl⟩ := needOne_ok h; rfl
  refine ⟨head, ?_⟩
  cases op
  case halt => simp only [decodeParams, Except.ok.injEq] at h; subst h; simp [Instr.params, Opcode.numParams]
  case add => exact three h (fun _ _ _ => rfl)
  case multiply => exact three h (fun _ _ _ => rfl)
  case lessThan => exact three h (fun _ _ _ => rfl)
  case equals => exact three h (fun _ _ _ => rfl)
  case jumpIfTrue => exact two h (fun _ _ => rfl)
  case jumpIfFalse => exact two h (fun _ _ => rfl)
  case input => exact one h (fun _ => rfl)
  case output => exact one h (fun _ => rfl)

/-- What decodes starts with an instruction word and has all the words of its width. -/
theorem decode_ok {ws : List Word} {i : Instr} (h : decode ws = .ok i) :
    ∃ ir ps op, ws = ir :: ps ∧ decodeOpcode ir = some op ∧ decodeParams ir ps op = .ok i := by
  cases ws with
  | nil => simp [decode] at h
  | cons ir ps =>
    simp only [decode] at h
    cases ho : decodeOpcode ir with
    | none => simp [ho] at h
    | some op => exact ⟨ir, ps, op, rfl, ho, by simpa [ho] using h⟩

theorem decode_width {ws : List Word} {i : Instr} (h : decode ws = .ok i) : i.width ≤ ws.length := by
  obtain ⟨ir, ps, op, rfl, -, h⟩ := decode_ok h
  obtain ⟨-, hn, hl, -⟩ := decodeParams_ok h
  simp only [Instr.width, List.length_cons]; omega

/-- Why a list of words does not decode. -/
theorem decode_error {ws : List Word} {r : DecodeError} (h : decode ws = .error r) :
    (ws = [] ∧ r = .noWord) ∨
    (∃ ir ps, ws = ir :: ps ∧ decodeOpcode ir = none ∧ r = .unknownOpcode ir) ∨
    (∃ ir ps op, ws = ir :: ps ∧ decodeOpcode ir = some op ∧ ps.length < op.numParams ∧
      r = .missingParam (ps.length + 1)) := by
  cases ws with
  | nil => simp only [decode, Except.error.injEq] at h; exact .inl ⟨rfl, h.symm⟩
  | cons ir ps =>
    simp only [decode] at h
    cases ho : decodeOpcode ir with
    | none => simp only [ho, Except.error.injEq] at h; exact .inr (.inl ⟨ir, ps, rfl, ho, h.symm⟩)
    | some op =>
      simp only [ho] at h
      exact .inr (.inr ⟨ir, ps, op, rfl, ho, decodeParams_error h⟩)

/-! ### The fetch -/

theorem Memory.wordsFrom_length (m : Memory) : ∀ (n a : Nat), (m.wordsFrom a n).length = min n (m.len - a) := by
  intro n
  induction n with
  | zero => intro a; simp [Memory.wordsFrom]
  | succ n ih =>
    intro a
    by_cases h : a < m.len
    · simp only [Memory.wordsFrom, h, if_true, List.length_cons, ih]; omega
    · simp only [Memory.wordsFrom, h, if_false, List.length_nil]; omega

theorem Engine.window_length (e : Engine) : e.window.length = min 4 (e.mem.len - e.ip) :=
  Memory.wordsFrom_length e.mem 4 e.ip

/-- The words of the window are the words read from `IP` on. -/
theorem Engine.window_getElem? (e : Engine) {k : Nat} (hk : k < 4) :
    e.window[k]? = e.mem.read ((e.ip + k : Nat) : Int) := by
  have := Memory.wordsFrom_getElem? e.mem maxWidth e.ip k
  simpa [Engine.window, maxWidth, hk] using this

theorem Engine.fetch_ok_iff {e : Engine} {i : Instr} : e.fetch = .ok i ↔ decode e.window = .ok i := by
  unfold Engine.fetch
  cases decode e.window with
  | ok j => simp
  | error r => cases r <;> simp

/-- An instruction that is fetched lies within Memory as a whole, so `IP + width <= L` (10_state.md R19). -/
theorem Engine.fetch_ok_room {e : Engine} {i : Instr} (h : e.fetch = .ok i) : e.ip + i.width ≤ e.mem.len := by
  have hw := decode_width (Engine.fetch_ok_iff.1 h)
  rw [Engine.window_length] at hw
  have : 1 ≤ i.width := by simp [Instr.width]
  omega

/-- The faults of fetch, decode and parameter fetch (40_execution-cycle.md R71, R72, R73). -/
theorem Engine.fetch_error {e : Engine} {f : FaultInfo} (h : e.fetch = .error f) :
    f.code = .outOfBounds ∨ (f.code = .unknownOpcode ∧ decodeOpcode f.info = none) := by
  unfold Engine.fetch at h
  cases hd : decode e.window with
  | ok j => simp [hd] at h
  | error r =>
    simp only [hd] at h
    rcases decode_error hd with ⟨-, rfl⟩ | ⟨ir, ps, -, ho, rfl⟩ | ⟨ir, ps, op, -, -, -, rfl⟩
    · exact .inl (by rw [← Except.error.inj h]; rfl)
    · refine .inr ?_; rw [← Except.error.inj h]; exact ⟨rfl, ho⟩
    · exact .inl (by rw [← Except.error.inj h]; rfl)

end Sys2Proof.Machine
end

