-- ==== Sys2Proof/Laws/Orchestrator.lean ====
section
/-! SUPPORT. What a relay, a round and a set-up can do. -/

namespace Sys2Proof.Machine

theorem Engine.write_ok {cfg : Config} {v : Word} {e e' : Engine} (h : e.write cfg v = .ok e') :
    queueFull cfg.iqDepth e.iq = false ∧ e' = { e with iq := e.iq ++ [v] } := by
  unfold Engine.write at h
  split at h
  · simp at h
  · rename_i hq; exact ⟨by simpa using hq, (Except.ok.inj h).symm⟩

/-- A relay that is not turned away appends its values in order and changes nothing else (47_orchestrator.md R110). -/
theorem relayInto_ok {cfg : Config} : ∀ {vs : List Word} {e e' : Engine}, relayInto cfg vs e = .ok e' →
    e' = { e with iq := e.iq ++ vs } ∧ (fits cfg.iqDepth e.iq.length = true → fits cfg.iqDepth e'.iq.length = true) := by
  intro vs
  induction vs with
  | nil => intro e e' h; simp only [relayInto, Except.ok.injEq] at h; subst h; simp
  | cons v vs ih =>
    intro e e' h
    simp only [relayInto] at h
    cases hw : e.write cfg v with
    | error r => simp [hw] at h
    | ok e1 =>
      simp only [hw] at h
      obtain ⟨hq, rfl⟩ := Engine.write_ok hw
      obtain ⟨rfl, hf⟩ := ih h
      refine ⟨by simp, fun _ => hf ?_⟩
      revert hq; unfold queueFull fits
      cases cfg.iqDepth <;> simp

/-- With an unbounded input queue no relay is turned away. -/
theorem relayInto_unbounded {cfg : Config} (h : cfg.iqDepth = none) : ∀ (vs : List Word) (e : Engine),
    relayInto cfg vs e = .ok { e with iq := e.iq ++ vs } := by
  intro vs
  induction vs with
  | nil => intro e; simp [relayInto]
  | cons v vs ih => intro e; simp [relayInto, Engine.write, queueFull, h, ih, enqueue]

/-- The stage a relay goes to, with the stages around it once `CUR` has moved there: the three places the current
stage can have in the ring. -/
theorem State.relayNext_ok {s t : State} (h : s.relayNext = .ok t) :
    (∃ e rest, s.after = e :: rest ∧
      t = { s with before := s.before ++ [s.eng.drained], eng := { e with iq := e.iq ++ s.eng.oq }, after := rest } ∧
      (fits s.cfg.iqDepth e.iq.length = true → fits s.cfg.iqDepth t.eng.iq.length = true)) ∨
    (∃ e rest, s.after = [] ∧ s.before = e :: rest ∧
      t = { s with before := [], eng := { e with iq := e.iq ++ s.eng.oq }, after := rest ++ [s.eng.drained] } ∧
      (fits s.cfg.iqDepth e.iq.length = true → fits s.cfg.iqDepth t.eng.iq.length = true)) ∨
    (s.after = [] ∧ s.before = [] ∧
      t = { s with eng := { s.eng.drained with iq := s.eng.iq ++ s.eng.oq } } ∧
      (fits s.cfg.iqDepth s.eng.iq.length = true → fits s.cfg.iqDepth t.eng.iq.length = true)) := by
  unfold State.relayNext at h
  split at h
  · rename_i e rest ha
    cases hr : relayInto s.cfg s.eng.oq e with
    | error r => simp [hr] at h
    | ok e' =>
      simp only [hr, Except.ok.injEq] at h; subst h
      obtain ⟨rfl, hf⟩ := relayInto_ok hr
      exact .inl ⟨e, rest, ha, rfl, hf⟩
  · rename_i e rest ha hb
    cases hr : relayInto s.cfg s.eng.oq e with
    | error r => simp [hr] at h
    | ok e' =>
      simp only [hr, Except.ok.injEq] at h; subst h
      obtain ⟨rfl, hf⟩ := relayInto_ok hr
      exact .inr (.inl ⟨e, rest, ha, hb, rfl, hf⟩)
  · rename_i ha hb
    cases hr : relayInto s.cfg s.eng.oq s.eng.drained with
    | error r => simp [hr] at h
    | ok e' =>
      simp only [hr, Except.ok.injEq] at h; subst h
      obtain ⟨rfl, hf⟩ := relayInto_ok hr
      exact .inr (.inr ⟨ha, hb, rfl, hf⟩)

/-- What a step that answers a next state has done: an Engine outside a run, the ring while its `execute()` goes on,
the end of a round, or nothing once a run is over. -/
theorem step_cases {s t : State} (h : step s = .next t) :
    ((s.pst = .done ∨ s.pst = .aborted) ∧ t = s) ∨
    (s.pst = .idle ∧ executeStep s = .next t) ∨
    (s.pst = .running ∧ ∃ u, executeStep s = .next u ∧
      ((u.eng.st = .running ∧ t = u) ∨ (u.eng.st ≠ .running ∧ u.endRound = .ok t))) := by
  unfold step at h
  cases hp : s.pst with
  | idle => simp only [hp] at h; exact .inr (.inl ⟨rfl, h⟩)
  | done => simp only [hp, Host.Outcome.next.injEq] at h; exact .inl ⟨.inl rfl, h.symm⟩
  | aborted => simp only [hp, Host.Outcome.next.injEq] at h; exact .inl ⟨.inr rfl, h.symm⟩
  | running =>
    obtain ⟨e, he⟩ := executeStep_is_next s
    simp only [hp, he, State.afterStep] at h
    refine .inr (.inr ⟨rfl, _, he, ?_⟩)
    split at h
    · rename_i hr; exact .inl ⟨hr, (Host.Outcome.next.inj h).symm⟩
    · rename_i hr
      cases her : State.endRound (s.withEngine e) with
      | ok u => simp only [her, Host.Outcome.next.injEq] at h; exact .inr ⟨hr, by rw [h]⟩
      | error r => simp [her] at h

/-- The end of a round: an abort, the end of the run, or a relay (47_orchestrator.md R109). -/
theorem State.endRound_ok {s t : State} (h : s.endRound = .ok t) :
    (s.eng.st = .faulted ∧ t = s.abort) ∨ (s.eng.st = .halted ∧ s.after = [] ∧ t = s.finish) ∨
    (s.eng.st ≠ .faulted ∧ ¬ (s.eng.st = .halted ∧ s.after = []) ∧ s.relayNext = .ok t) := by
  unfold State.endRound at h
  cases hs : s.eng.st with
  | faulted => simp only [hs, Except.ok.injEq] at h; exact .inl ⟨rfl, h.symm⟩
  | running => simp only [hs] at h; exact .inr (.inr ⟨by simp, by simp, h⟩)
  | blocked => simp only [hs] at h; exact .inr (.inr ⟨by simp, by simp, h⟩)
  | halted =>
    simp only [hs] at h
    split at h
    · rename_i ha; exact .inr (.inl ⟨rfl, ha, (Except.ok.inj h).symm⟩)
    · rename_i ha; exact .inr (.inr ⟨by simp, by simp [ha], h⟩)

/-- What one step of an `execute()` call does to the Engine it runs, case by case: nothing when it is over, the fault
of fetch or of the instruction, or the instruction's effect from Running. -/
theorem executeStep_cases {s t : State} (h : executeStep s = .next t) :
    ((s.eng.st = .halted ∨ s.eng.st = .faulted) ∧ t = s) ∨
    ((s.eng.st = .running ∨ s.eng.st = .blocked) ∧
      ((∃ f, s.eng.fetch = .error f ∧ t = s.withEngine (s.eng.begin.takeFault f)) ∨
       (∃ i f, s.eng.fetch = .ok i ∧ effect i (s.withEngine s.eng.begin) = .error f ∧
         t = s.withEngine (s.eng.begin.takeFault f)) ∨
       (∃ i e, s.eng.fetch = .ok i ∧ effect i (s.withEngine s.eng.begin) = .ok e ∧ t = s.withEngine e))) := by
  have run : runInstr (s.withEngine s.eng.begin) = .next t →
      ((∃ f, s.eng.fetch = .error f ∧ t = s.withEngine (s.eng.begin.takeFault f)) ∨
       (∃ i f, s.eng.fetch = .ok i ∧ effect i (s.withEngine s.eng.begin) = .error f ∧
         t = s.withEngine (s.eng.begin.takeFault f)) ∨
       (∃ i e, s.eng.fetch = .ok i ∧ effect i (s.withEngine s.eng.begin) = .ok e ∧ t = s.withEngine e)) := by
    intro h
    unfold runInstr at h
    simp only [State.withEngine_eng, Engine.begin_fetch] at h
    cases hf : s.eng.fetch with
    | error f => simp only [hf, Host.Outcome.next.injEq] at h; exact .inl ⟨f, rfl, h.symm⟩
    | ok i =>
      simp only [hf] at h
      rw [exec_eq_retire] at h
      rcases retire_next h with ⟨e, he, rfl⟩ | ⟨f, he, rfl⟩
      · exact .inr (.inr ⟨i, e, rfl, he, rfl⟩)
      · exact .inr (.inl ⟨i, f, rfl, he, rfl⟩)
  unfold executeStep at h
  cases hs : s.eng.st with
  | running => simp only [hs] at h; exact .inr ⟨.inl rfl, run h⟩
  | blocked => simp only [hs] at h; exact .inr ⟨.inr rfl, run h⟩
  | halted => simp only [hs, Host.Outcome.next.injEq] at h; exact .inl ⟨.inl rfl, h.symm⟩
  | faulted => simp only [hs, Host.Outcome.next.injEq] at h; exact .inl ⟨.inr rfl, h.symm⟩

/-! ### Whole runs and requests -/

/-- A run of the ring goes on while `PST` is Running, and otherwise returns what the step left. -/
theorem runRing_succ {s t : State} (h : step s = .next t) (k : Nat) :
    runRing (k + 1) s = if t.pst = .running then runRing k t else some (.next t) := by
  simp [runRing, h]

/-- An operation on the Engine in focus leaves the Engines around it alone, whether it is refused or not. -/
@[simp] theorem State.update_before (s : State) (r : Except Refusal Engine) : (s.update r).2.before = s.before := by
  cases r <;> rfl
@[simp] theorem State.update_after (s : State) (r : Except Refusal Engine) : (s.update r).2.after = s.after := by
  cases r <;> rfl

/-- Turning to an Engine moves no Engine. -/
theorem State.select_ok {s t : State} {j : Nat} (h : s.select j = .ok t) :
    t.stages = s.stages ∧ t.before = s.stages.take j ∧ t.pst = s.pst ∧ t.cfg = s.cfg := by
  unfold State.select at h
  cases hd : s.stages.drop j with
  | nil => simp [hd] at h
  | cons e rest =>
    simp only [hd, Except.ok.injEq] at h; subst h
    exact ⟨by rw [State.stages, ← hd, List.take_append_drop], rfl, rfl, rfl⟩

end Sys2Proof.Machine
end

