-- ==== Sys2Proof/Laws/PerInstr.lean ====
section
/-! SUPPORT. Facts about every instruction as syntax, one lemma per constructor. -/

namespace Sys2Proof.Laws.EncodedWidth

/-- An instruction encodes to as many words as its width, which its opcode alone fixes (30_encoding.md R51, R61). -/
def Statement (i : Instr) : Prop := (encode i).length = i.width ∧ i.width = 1 + i.opcode.numParams

theorem add (a b dst : Param) : Statement (.add a b dst) := ⟨rfl, rfl⟩
theorem multiply (a b dst : Param) : Statement (.multiply a b dst) := ⟨rfl, rfl⟩
theorem input (dst : Param) : Statement (.input dst) := ⟨rfl, rfl⟩
theorem output (a : Param) : Statement (.output a) := ⟨rfl, rfl⟩
theorem jumpIfTrue (a target : Param) : Statement (.jumpIfTrue a target) := ⟨rfl, rfl⟩
theorem jumpIfFalse (a target : Param) : Statement (.jumpIfFalse a target) := ⟨rfl, rfl⟩
theorem lessThan (a b dst : Param) : Statement (.lessThan a b dst) := ⟨rfl, rfl⟩
theorem equals (a b dst : Param) : Statement (.equals a b dst) := ⟨rfl, rfl⟩
theorem halt : Statement .halt := ⟨rfl, rfl⟩

end Sys2Proof.Laws.EncodedWidth
end

