-- ==== Sys2Proof/Tests/Slice0.lean ====
section
/-! SUPPORT. Small tests whose expected values are the spec's (95_test_vectors.md, cited by the vector's name), and for
every statement with hypotheses a witness: concrete values that meet all of them, at the ends of their ranges. -/

open Sys2Proof Sys2Proof.Machine

namespace Sys2Proof.Tests

/-- An Engine loaded with an image, with these values written to it. -/
def engineOf (image iq : List Word) : Engine := { Engine.reset with mem := Memory.ofImage image, iq := iq }

/-- The block outside a run of the ring with that Engine in focus. -/
def boot (image iq : List Word) : State := { State.reset with eng := engineOf image iq }

/-- The same with the Engine in another execution state. -/
def bootIn (st : ExecState) (image iq : List Word) : State :=
  { State.reset with eng := { engineOf image iq with st := st } }

/-- A block with finite queues. -/
def bootFinite (cfg : Config) (image iq oq : List Word) : State :=
  { State.reset with cfg := cfg, eng := { engineOf image iq with oq := oq } }

/-- A run of the ring with these stages before, at and after the current one. -/
def ring (before : List Engine) (e : Engine) (after : List Engine) : State :=
  { State.reset with before := before, eng := e, after := after, pst := .running }

/-- The state an outcome goes on with. -/
def after (o : Host.Outcome State Fault Refusal) : State :=
  match o with
  | .next s => s
  | .fault _ => State.reset
  | .refused _ => State.reset

/-- What the tests look at: the Memory as an image, `IP`, `ST`, `FC`, `FI`. -/
def look (o : Host.Outcome State Fault Refusal) : List Word × Nat × ExecState × FaultCode × Word :=
  let e := (after o).eng
  (e.mem.image, e.ip, e.st, e.fc, e.fi)

/-- The least and the greatest word. -/
def least : Word := -9223372036854775808
def greatest : Word := 9223372036854775807

/-- A position and an immediate parameter. -/
def pos (w : Word) : Param := ⟨.position, w⟩
def imm (w : Word) : Param := ⟨.immediate, w⟩

/-! ### Well-formedness -/

theorem test_wf_refuses_two_names_for_digit_0 : Instr.wf (.add ⟨.other 0, 1⟩ (pos 2) (pos 3)) = false := by decide
theorem test_wf_refuses_two_names_for_digit_1 : Instr.wf (.output ⟨.other 1, 1⟩) = false := by decide
theorem test_wf_refuses_a_mode_of_two_digits : Instr.wf (.jumpIfTrue (pos 1) ⟨.other 10, 1⟩) = false := by decide
theorem test_wf_refuses_a_bad_destination : Instr.wf (.input ⟨.other 10, 1⟩) = false ∧
    Instr.wf (.equals (pos 1) (pos 1) ⟨.other 11, 1⟩) = false ∧
    Instr.wf (.lessThan (pos 1) (pos 1) ⟨.other 1, 1⟩) = false ∧
    Instr.wf (.multiply (pos 1) ⟨.other 0, 1⟩ (pos 1)) = false ∧
    Instr.wf (.jumpIfFalse ⟨.other 12, 1⟩ (pos 1)) = false := by decide
theorem test_wf_admits_every_digit :
    (List.range 10).all (fun d => Instr.wf (.output ⟨Mode.ofDigit d, -1⟩)) = true := by decide

/-! ### Decoding: words written out from the opcode map -/

theorem test_decode_add : decode [1001, 10, -1, 10] = .ok (.add (pos 10) (imm (-1)) (pos 10)) := by decide
theorem test_decode_multiply : decode [1002, 4, 3, 4, 33] = .ok (.multiply (pos 4) (imm 3) (pos 4)) := by decide
theorem test_decode_input : decode [103, 0] = .ok (.input (imm 0)) := by decide
theorem test_decode_output : decode [104, -7] = .ok (.output (imm (-7))) := by decide
theorem test_decode_jumpIfTrue : decode [1005, 27, 16] = .ok (.jumpIfTrue (pos 27) (imm 16)) := by decide
theorem test_decode_jumpIfFalse : decode [106, 0, 5] = .ok (.jumpIfFalse (imm 0) (pos 5)) := by decide
theorem test_decode_lessThan : decode [10107, 1, 2, 3] = .ok (.lessThan (imm 1) (pos 2) (imm 3)) := by decide
theorem test_decode_equals : decode [1108, -1, 8, 3] = .ok (.equals (imm (-1)) (imm 8) (pos 3)) := by decide
theorem test_decode_halt : decode [199] = .ok .halt ∧ decode [1099] = .ok .halt ∧ decode [10099] = .ok .halt := by
  decide
theorem test_decode_ignores_high_digits : decode [100001, 0, 0, 0] = .ok (.add (pos 0) (pos 0) (pos 0)) := by decide
theorem test_decode_keeps_bad_modes :
    decode [21101, 1, 1, 0] = .ok (.add (imm 1) (imm 1) ⟨.other 2, 0⟩) ∧
    decode [904, 0] = .ok (.output ⟨.other 9, 0⟩) := by decide
theorem test_decode_refuses : decode [] = .error .noWord ∧ decode [0] = .error (.unknownOpcode 0) ∧
    decode [9, 0] = .error (.unknownOpcode 9) ∧ decode [98] = .error (.unknownOpcode 98) ∧
    decode [-99] = .error (.unknownOpcode (-99)) ∧ decode [1, 0, 0] = .error (.missingParam 3) ∧
    decode [3] = .error (.missingParam 1) := by decide
/-- The table numbers the bits of the first word 63..0 and of the next word 127..64. -/
theorem test_decodeTableWord : decodeTableWord 64 99 = some .halt ∧ decodeTableWord 64 1 = some (.add (pos 0) (pos 0) (pos 0)) ∧
    decodeTableWord 128 (104 + 7 * 2 ^ 64) = some (.output (imm 7)) ∧ decodeTableWord 64 9 = none := by decide
/-- The instruction runs as the first step after reset. -/
theorem test_withFetchWord_runs :
    (after (step (State.reset.withFetchWord 64 99))).eng.st = .halted ∧
    (after (step (State.reset.withFetchWord 128 (104 + 7 * 2 ^ 64)))).eng.oq = [7] := by decide
theorem test_reset_memory_is_canonical : State.reset.eng.mem.wf = true := by decide

/-! ### One step of each instruction -/

/-- V-AR1. -/
theorem test_add_destination_is_source : look (step (boot [1, 0, 0, 0, 99] [])) = ([2, 0, 0, 0, 99], 4, .running, .none, 0) := by
  decide
/-- V-AR7. -/
theorem test_add_wraps : look (step (boot [1101, greatest, 1, 0, 99] [])) =
    ([least, greatest, 1, 0, 99], 4, .running, .none, 0) := by decide
/-- V-AR2. -/
theorem test_multiply_writes_its_own_parameter : look (step (boot [2, 3, 0, 3, 99] [])) =
    ([2, 3, 0, 6, 99], 4, .running, .none, 0) := by decide
/-- V-AR10. -/
theorem test_multiply_wraps : look (step (boot [1102, least, -1, 0, 99] [])) =
    ([least, least, -1, 0, 99], 4, .running, .none, 0) := by decide
/-- V-AR17. -/
theorem test_destination_mode_2_faults : look (step (boot [21101, 1, 1, 0, 99] [])) =
    ([21101, 1, 1, 0, 99], 0, .faulted, .missingDestination, 3) := by decide
/-- V-IO8. -/
theorem test_input_takes_the_head : look (step (boot [3, 0, 99] [1, 2])) = ([1, 0, 99], 2, .running, .none, 0) ∧
    (after (step (boot [3, 0, 99] [1, 2]))).eng.iq = [2] := by decide
/-- V-IO4. -/
theorem test_input_blocks : look (step (boot [3, 0, 99] [])) = ([3, 0, 99], 0, .blocked, .none, 0) := by decide
/-- V-IO9. -/
theorem test_output_immediate : (after (step (boot [104, -7, 99] []))).eng.oq = [-7] ∧
    (after (step (boot [104, -7, 99] []))).eng.ip = 2 := by decide
/-- V-IO14, its second output. -/
theorem test_output_overflow : look (step (bootFinite ⟨none, none, some 1⟩ [104, 2, 99] [] [1])) =
    ([104, 2, 99], 0, .faulted, .queueOverflow, 2) := by decide
/-- V-CT1. -/
theorem test_jumpIfTrue_to_length : look (step (boot [1105, 1, 5, 99, 99] [])) =
    ([1105, 1, 5, 99, 99], 5, .running, .none, 0) := by decide
/-- V-CT2. -/
theorem test_jumpIfTrue_beyond_length : look (step (boot [1105, 1, 6, 99, 99] [])) =
    ([1105, 1, 6, 99, 99], 0, .faulted, .outOfBounds, 6) := by decide
/-- V-CT4. -/
theorem test_jumpIfFalse_not_taken : look (step (boot [1106, 1, -1, 99] [])) =
    ([1106, 1, -1, 99], 3, .running, .none, 0) := by decide
/-- V-CT12. -/
theorem test_jumpIfFalse_position_target : look (step (boot [6, 4, 5, 99, 0, -1] [])) =
    ([6, 4, 5, 99, 0, -1], 0, .faulted, .outOfBounds, -1) := by decide
/-- V-CMP2, V-CMP4. -/
theorem test_lessThan_is_signed : look (step (boot [1107, 1, -1, 0, 99] [])) = ([0, 1, -1, 0, 99], 4, .running, .none, 0) ∧
    look (step (boot [1107, least, greatest, 0, 99] [])) = ([1, least, greatest, 0, 99], 4, .running, .none, 0) := by decide
/-- V-CMP6, V-CMP8. -/
theorem test_equals : look (step (boot [1108, 1, 2, 0, 99] [])) = ([0, 1, 2, 0, 99], 4, .running, .none, 0) ∧
    look (step (boot [8, 0, 0, 0, 99] [])) = ([1, 0, 0, 0, 99], 4, .running, .none, 0) := by decide
/-- V-H1. -/
theorem test_halt_keeps_ip : look (step (boot [99, 1, 2] [])) = ([99, 1, 2], 0, .halted, .none, 0) := by decide
/-- V-F8. -/
theorem test_missing_parameter_comes_first : look (step (boot [1, 100, 0] [])) =
    ([1, 100, 0], 0, .faulted, .outOfBounds, 3) := by decide
/-- V-HO7. -/
theorem test_program_text : imageOfText ['1', ',', ' ', '-', '2', ' ', ',', 'x', ',', ',', '9', '9'] = [1, -2, 99] := by
  decide +kernel
/-- The example of 30_encoding.md R64. -/
theorem test_assembly : assembleLines ["multiply [4], #3, [4]".toList] = some [1002, 4, 3, 4] := by
  decide +kernel
/-- V-OR4: the final stage halts with nothing output. -/
theorem test_ring_without_result :
    (after (step (ring [{ engineOf [1, 0, 99] [0] with ip := 2, st := .halted }] { engineOf [2, 0, 99] [] with ip := 2 } []))).pst = .done ∧
    (after (step (ring [{ engineOf [1, 0, 99] [0] with ip := 2, st := .halted }] { engineOf [2, 0, 99] [] with ip := 2 } []))).result = none := by
  decide

/-! ### Witnesses: encoding and fetch -/

theorem witness_DecodeInvertsEncode : Instr.wf (.add ⟨.other 9, least⟩ (imm greatest) ⟨.other 2, -1⟩) = true ∧
    Instr.wf .halt = true := by decide
theorem witness_DecodedFieldsAreTheDigits :
    decode (90101 :: [5, -1, 7, 8]) = .ok (.add (imm 5) (pos (-1)) ⟨.other 9, 7⟩) := by decide
theorem witness_IgnoredDigitsChangeNothing :
    decodeOpcode 1104 = some .output ∧ 0 ≤ (9990104 : Word).toInt ∧
    (9990104 : Word).toInt % 100 = (1104 : Word).toInt % 100 ∧
    (∀ k, 1 ≤ k → k ≤ Opcode.output.numParams →
      (9990104 : Word).toInt / 10 ^ (k + 1) % 10 = (1104 : Word).toInt / 10 ^ (k + 1) % 10) := by
  refine ⟨by decide, by decide, by decide, fun k h1 h2 => ?_⟩
  have : k = 1 := by simp [Opcode.numParams] at h2; omega
  subst this; decide
theorem witness_UnknownOpcodeFaults :
    ((-1 : Word).toInt < 0 ∧ least.toInt < 0) ∧ ((0 : Word).toInt % 100 = 0 ∧ (100 : Word).toInt % 100 = 0) ∧
    (9 ≤ (9 : Word).toInt % 100 ∧ (98 : Word).toInt % 100 ≤ 98) ∧
    (Executes (boot [98] []) ∧ (boot [98] []).eng.mem.read (boot [98] []).eng.ip = some 98) ∧
    (Executes (boot [-1] []) ∧ (boot [-1] []).eng.mem.read (boot [-1] []).eng.ip = some (-1)) ∧
    (Executes (boot [0] []) ∧ (boot [0] []).eng.mem.read (boot [0] []).eng.ip = some 0) := by decide
theorem witness_FetchOutsideMemoryFaults :
    (Executes (boot [] []) ∧ (boot [] []).eng.mem.read (boot [] []).eng.ip = none ∧
      (boot [] []).eng.Ok (boot [] []).cfg) ∧
    (Executes (boot [99] []) ∧ (boot [99] []).eng.mem.read (boot [99] []).eng.ip = some 99) := by decide
theorem witness_MissingParameterFaults :
    (Executes (boot [1, 0, 0] []) ∧ (boot [1, 0, 0] []).eng.mem.read (boot [1, 0, 0] []).eng.ip = some 1 ∧
      decodeOpcode 1 = some .add ∧ 3 ≤ Opcode.add.numParams ∧
      (boot [1, 0, 0] []).eng.ip + 3 = (boot [1, 0, 0] []).eng.mem.len) ∧
    (Executes (bootIn .blocked [3] []) ∧
      (bootIn .blocked [3] []).eng.mem.read (bootIn .blocked [3] []).eng.ip = some 3 ∧
      decodeOpcode 3 = some .input ∧ 1 ≤ Opcode.input.numParams ∧
      (bootIn .blocked [3] []).eng.ip + 1 = (bootIn .blocked [3] []).eng.mem.len) := by decide
theorem witness_StepRunsDecodedInstruction :
    (Executes (boot [99] []) ∧ decode (boot [99] []).eng.window = .ok .halt ∧ (boot [99] []).pst = .idle) ∧
    (Executes (ring [] (engineOf [104, 5] []) []) ∧
      decode (ring [] (engineOf [104, 5] []) []).eng.window = .ok (.output (imm 5)) ∧
      (ring [] (engineOf [104, 5] []) []).pst = .running) ∧
    exec (.output (imm 5)) (Started (ring [] (engineOf [104, 5] []) [])) =
      .next (after (exec (.output (imm 5)) (Started (ring [] (engineOf [104, 5] []) [])))) :=
  ⟨by decide, by decide, rfl⟩

/-! ### Witnesses: operands -/

/-- The Memory of the operand witnesses: indices 0 and 3 are its ends. -/
def four : State := boot [7, -1, 0, 5] []

/-- For add, multiply, less-than and equals: both source modes, both ends of Memory, both destination digits. -/
theorem witness_ThreeOperandCompletes :
    (SourceReads four.eng.mem (pos 0) 7 ∧ SourceReads four.eng.mem (pos 3) 5 ∧ DestReaches four.eng.mem (pos 0) 0) ∧
    (SourceReads four.eng.mem (imm least) least ∧ SourceReads four.eng.mem (imm (-9)) (-9) ∧
      DestReaches four.eng.mem (imm 3) 3) := by decide
theorem witness_ThreeOperandFaultOrder :
    ThreeOperandForm .lessThan ∧
    SourceFaults four.eng.mem 1 ⟨.other 2, 0⟩ ⟨.invalidMode, 1⟩ ∧ SourceFaults four.eng.mem 1 (pos 4) ⟨.outOfBounds, 4⟩ ∧
    (SourceReads four.eng.mem (pos 0) 7 ∧ SourceFaults four.eng.mem 2 (pos (-1)) ⟨.outOfBounds, -1⟩) ∧
    (SourceReads four.eng.mem (pos 0) 7 ∧ SourceReads four.eng.mem (imm 9) 9 ∧
      DestFaults four.eng.mem 3 ⟨.other 9, 0⟩ ⟨.missingDestination, 3⟩ ∧ DestFaults four.eng.mem 3 (imm 4) ⟨.outOfBounds, 4⟩) :=
  ⟨.inr (.inr (.inl rfl)), by decide⟩
theorem witness_InputTakesTheHead :
    DestReaches (boot [3, 1] [42, 43]).eng.mem (pos 1) 1 ∧ (boot [3, 1] [42, 43]).eng.iq = 42 :: [43] := by decide
theorem witness_InputBlocksOnEmptyQueue :
    DestReaches (bootIn .blocked [3, 0] []).eng.mem (pos 0) 0 ∧ (bootIn .blocked [3, 0] []).eng.iq = [] ∧
    (bootIn .blocked [3, 0] []).eng.fetch = .ok (.input (pos 0)) ∧ (bootIn .blocked [3, 0] []).eng.st = .blocked := by decide
theorem witness_InputFaultsBeforeBlocking :
    DestFaults four.eng.mem 1 ⟨.other 2, 0⟩ ⟨.missingDestination, 1⟩ ∧ DestFaults four.eng.mem 1 (pos 4) ⟨.outOfBounds, 4⟩ ∧
    DestFaults four.eng.mem 1 (pos (-1)) ⟨.outOfBounds, -1⟩ := by decide
theorem witness_OutputAppends :
    SourceReads four.eng.mem (pos 3) 5 ∧ (∀ n, four.cfg.oqDepth = some n → four.eng.oq.length < n) ∧
    (∀ n, (bootFinite ⟨none, none, some 2⟩ [4, 0] [] [9]).cfg.oqDepth = some n →
      (bootFinite ⟨none, none, some 2⟩ [4, 0] [] [9]).eng.oq.length < n) ∧
    SourceReads (bootFinite ⟨none, none, some 2⟩ [4, 0] [] [9]).eng.mem (pos 0) 4 := by
  refine ⟨by decide, (by intro n h; cases h), fun n h => ?_, by decide⟩
  cases h; decide
theorem witness_OutputFaults :
    SourceFaults four.eng.mem 1 ⟨.other 2, 0⟩ ⟨.invalidMode, 1⟩ ∧
    (SourceReads (bootFinite ⟨none, none, some 0⟩ [4, 0] [] []).eng.mem (imm (-1)) (-1) ∧
      (bootFinite ⟨none, none, some 0⟩ [4, 0] [] []).cfg.oqDepth = some 0 ∧
      (bootFinite ⟨none, none, some 0⟩ [4, 0] [] []).eng.oq.length = 0) := by decide
/-- For both jumps: taken to 0 and to the length, and not taken with a target out of range. -/
theorem witness_JumpsMoveIp :
    (SourceReads four.eng.mem (pos 1) (-1) ∧ SourceReads four.eng.mem (imm 4) 4 ∧
      0 ≤ (4 : Word).toInt ∧ (4 : Word).toInt ≤ four.eng.mem.len ∧ (-1 : Word) ≠ 0) ∧
    (SourceReads four.eng.mem (pos 2) 0 ∧ SourceReads four.eng.mem (pos 2) 0 ∧
      0 ≤ (0 : Word).toInt ∧ (0 : Word).toInt ≤ four.eng.mem.len) ∧
    SourceReads four.eng.mem (imm (-1)) (-1) := by decide
theorem witness_JumpFaults :
    JumpForm .jumpIfTrue ∧ JumpForm .jumpIfFalse ∧
    SourceFaults four.eng.mem 1 (pos 4) ⟨.outOfBounds, 4⟩ ∧
    (SourceReads four.eng.mem (imm 0) 0 ∧ SourceFaults four.eng.mem 2 ⟨.other 3, 0⟩ ⟨.invalidMode, 2⟩) ∧
    (SourceReads four.eng.mem (imm 1) 1 ∧ SourceReads four.eng.mem (imm 5) 5 ∧ (1 : Word) ≠ 0 ∧
      ¬ (0 ≤ (5 : Word).toInt ∧ (5 : Word).toInt ≤ four.eng.mem.len)) ∧
    (SourceReads four.eng.mem (imm 0) 0 ∧ SourceReads four.eng.mem (imm (-1)) (-1) ∧
      ¬ (0 ≤ (-1 : Word).toInt ∧ (-1 : Word).toInt ≤ four.eng.mem.len)) :=
  ⟨.inl rfl, .inr rfl, by decide⟩

/-! ### Witnesses: frames and faults -/

theorem witness_FrameOfStoringForms :
    ThreeOperandForm .add ∧
    exec (.add (imm 1) (imm 2) (pos 3)) four = .next (after (exec (.add (imm 1) (imm 2) (pos 3)) four)) ∧
    dst four.eng.mem 3 (pos 3) = .ok 3 ∧
    exec (.add (imm 1) (imm 2) (pos 4)) four = .next (after (exec (.add (imm 1) (imm 2) (pos 4)) four)) ∧
    (∀ t, dst four.eng.mem 3 (pos 4) ≠ .ok t) ∧
    exec (.input (pos 0)) four = .next (after (exec (.input (pos 0)) four)) ∧ dst four.eng.mem 1 (pos 0) = .ok 0 ∧
    (∀ t, dst four.eng.mem 1 (pos (-1)) ≠ .ok t) :=
  ⟨.inl rfl, rfl, by decide, rfl, (by intro t h; cases h), rfl, by decide, by intro t h; cases h⟩
theorem witness_FrameOfNonStoringForms :
    exec .halt four = .next (after (exec .halt four)) ∧
    exec (.jumpIfTrue (imm 1) (imm 0)) four = .next (after (exec (.jumpIfTrue (imm 1) (imm 0)) four)) ∧
    exec (.output (pos 0)) four = .next (after (exec (.output (pos 0)) four)) := ⟨rfl, rfl, rfl⟩
theorem witness_FaultsArePrecise :
    exec (.output (pos 4)) four = .next (after (exec (.output (pos 4)) four)) ∧
    (after (exec (.output (pos 4)) four)).eng.st = .faulted ∧ four.eng.st ≠ .faulted ∧
    executeStep (bootIn .blocked [77] []) = .next (after (executeStep (bootIn .blocked [77] []))) ∧
    (after (executeStep (bootIn .blocked [77] []))).eng.st = .faulted := ⟨rfl, by decide, by decide, rfl, by decide⟩
theorem witness_StoredWordIsFetchedNext :
    (ThreeOperandForm .add ∧ SourceReads (boot [1101, 70, 7, 4, 99] []).eng.mem (imm 70) 70 ∧
      SourceReads (boot [1101, 70, 7, 4, 99] []).eng.mem (imm 7) 7 ∧
      DestReaches (boot [1101, 70, 7, 4, 99] []).eng.mem (pos 4) (((boot [1101, 70, 7, 4, 99] []).eng.ip : Int) + 4) ∧
      decodeOpcode 77 = none ∧ Executes (boot [1101, 70, 7, 4, 99] [])) ∧
    (DestReaches (boot [3, 2, 99] [-1]).eng.mem (pos 2) (((boot [3, 2, 99] [-1]).eng.ip : Int) + 2) ∧
      (boot [3, 2, 99] [-1]).eng.iq = -1 :: [] ∧ decodeOpcode (-1) = none ∧ Executes (boot [3, 2, 99] [-1])) :=
  ⟨⟨.inl rfl, by decide⟩, by decide⟩

/-! ### Witnesses: execute() -/

theorem witness_StoppedEngineDoesNotFetch :
    ((bootIn .halted [99] []).eng.st = .halted ∧ (bootIn .halted [99] []).pst = .idle) ∧
    (bootIn .faulted [77] []).eng.st = .faulted := by decide
/-- An output, then a halt: `execute()` returns after two steps and not before. -/
def outThenHalt : State := boot [104, 5, 99] []

theorem witness_ExecuteNeverReturnsRunning :
    (Executes outThenHalt ∧ (after (executeStep outThenHalt)).eng.st = .running) ∧
    (Executes (bootIn .blocked [99] []) ∧ (after (executeStep (bootIn .blocked [99] []))).eng.st = .halted) ∧
    (Executes (boot [3, 0] []) ∧ (after (executeStep (boot [3, 0] []))).eng.st = .blocked) ∧
    (Executes (boot [] []) ∧ (after (executeStep (boot [] []))).eng.st = .faulted) := by decide
/-- The outcomes that the witness above speaks of are next states. -/
theorem witness_ExecuteNeverReturnsRunning_next :
    executeStep outThenHalt = .next (after (executeStep outThenHalt)) ∧
    executeStep (bootIn .blocked [99] []) = .next (after (executeStep (bootIn .blocked [99] []))) ∧
    executeStep (boot [3, 0] []) = .next (after (executeStep (boot [3, 0] []))) ∧
    executeStep (boot [] []) = .next (after (executeStep (boot [] []))) ∧
    execute 2 outThenHalt = some (.next (after (step (after (step outThenHalt))))) := ⟨rfl, rfl, rfl, rfl, rfl⟩
theorem witness_ExecuteResultIgnoresFuel :
    execute 2 outThenHalt = some (.next (after (step (after (step outThenHalt))))) ∧
    execute 9 outThenHalt = some (.next (after (step (after (step outThenHalt))))) := ⟨rfl, rfl⟩
theorem witness_ExecuteIsIteratedStep : outThenHalt.pst = .idle ∧
    execute 2 outThenHalt = some (.next (after (step (after (step outThenHalt))))) := ⟨rfl, rfl⟩

/-! ### Witnesses: invariants -/

/-- A ring of two stages in its invariant: stage 0 is about to output, stage 1 waits. -/
def twoStages : State :=
  { ring [] (engineOf [104, 5, 3, 0, 99] []) [engineOf [3, 0, 99] [6]] with cfg := ⟨some 5, none, none⟩ }

theorem witness_StepKeepsInvariant : twoStages.Inv ∧ step twoStages = .next (after (step twoStages)) := ⟨by decide, rfl⟩
theorem witness_SetupMeetsInvariant :
    ∃ s, setup ⟨some 3, some 2, none⟩ [3, 0, 99] [1] 0 = .ok s := ⟨_, rfl⟩
theorem witness_RequestsKeepEnginesInOrder : four.EnginesOk ∧
    request 0 (.poke 3 8) four = some (.done, (four.update (four.eng.poke 3 8)).2) := ⟨by decide, rfl⟩
theorem witness_LengthsAndParametersNeverChange : step twoStages = .next (after (step twoStages)) := rfl
theorem witness_AddressesFitEveryWidth : twoStages.Inv ∧ twoStages.cfg.memWords = some 5 ∧ 5 < 2 ^ 3 ∧
    step twoStages = .next (after (step twoStages)) := ⟨by decide, rfl, by decide, rfl⟩
theorem witness_UnboundedRunsAreNeverRefused : twoStages.Inv ∧ twoStages.cfg.iqDepth = none := by decide

/-! ### Witnesses: Memory and queues -/

theorem witness_MemReadReturnsTheWord :
    (0 ≤ (3 : Int) ∧ (3 : Int) < four.eng.mem.len) ∧ ([7, -1] : List Word)[(1 : Nat)]? = some (-1) ∧
    memWrite four.eng.mem 0 9 = .ok ⟨4, [(0, 9), (1, -1), (3, 5)]⟩ := by decide
theorem witness_MemWriteReplacesOneWord :
    ¬ (0 ≤ (-1 : Int) ∧ (-1 : Int) < four.eng.mem.len) ∧ ¬ (0 ≤ (4 : Int) ∧ (4 : Int) < four.eng.mem.len) ∧
    (0 ≤ (0 : Int) ∧ (0 : Int) < four.eng.mem.len) ∧ four.eng.mem.wf = true := by decide
theorem witness_CanonicalMemoriesAreEqual : four.eng.mem.wf = true ∧
    four.eng.mem.len = four.eng.mem.len ∧ ∀ a : Int, four.eng.mem.read a = four.eng.mem.read a := ⟨by decide, rfl, fun _ => rfl⟩

/-! ### Witnesses: host operations -/

theorem witness_LoadBuildsAFreshEngine :
    ((⟨some 1, none, none⟩ : Config).memWords = some 1 ∧ 1 < ([3, 0] : List Word).length) ∧
    (∀ n, (⟨some 2, none, none⟩ : Config).memWords = some n → ([3, 0] : List Word).length ≤ n) :=
  ⟨by decide, fun n h => by cases h; decide⟩
theorem witness_HostReadTakesTheHead : (four.pst ≠ .running ∧ four.eng.oq = []) ∧
    (bootFinite Config.unbounded [99] [] [1, 2]).eng.oq = 1 :: [2] := by decide
theorem witness_HostWriteAppends :
    four.pst ≠ .running ∧ (∀ n, four.cfg.iqDepth = some n → four.eng.iq.length < n) ∧
    (∀ n, (bootFinite ⟨none, some 1, none⟩ [99] [] []).cfg.iqDepth = some n →
      (bootFinite ⟨none, some 1, none⟩ [99] [] []).eng.iq.length < n) ∧
    ((bootFinite ⟨none, some 1, none⟩ [99] [5] []).cfg.iqDepth = some 1 ∧
      (bootFinite ⟨none, some 1, none⟩ [99] [5] []).eng.iq.length = 1) := by
  refine ⟨by decide, (by intro n h; cases h), fun n h => ?_, by decide⟩
  cases h; decide
theorem witness_PeekAndPoke : four.pst ≠ .running ∧ four.eng.mem.read (3 : Nat) = some 5 ∧ four.eng.mem.len ≤ 4 ∧
    3 < four.eng.mem.len := by decide
theorem witness_HostOperationsKeepStatus :
    request 0 (.write 5) four = some (.done, (four.update (four.eng.write four.cfg 5)).2) ∧
    request 0 (.peek 3) four = some (.word 5, four) := ⟨rfl, rfl⟩
theorem witness_CloneIsIndependent : four.pst ≠ .running ∧
    request 0 .clone four = some (.done, { four with after := [four.eng] }) ∧
    OnOneEngine (.poke 0 8) ∧ (∃ r u, request 0 (.poke 0 8) { four with after := [four.eng] } = some (r, u)) ∧
    request 0 (.select (four.cur + 1)) { four with after := [four.eng] } = some (.done, { four with before := [four.eng] }) ∧
    (∃ r u, request 0 (.poke 0 8) { four with before := [four.eng] } = some (r, u)) :=
  ⟨by decide, rfl, .inr (.inr (.inr (.inr (.inr ⟨_, _, rfl⟩)))), ⟨_, _, rfl⟩, rfl, _, _, rfl⟩

/-! ### Witnesses: the Orchestrator -/

theorem witness_SetupStartsEveryStage : Config.unbounded.iqDepth = none ∧
    Engine.load Config.unbounded [3, 0, 99] = .ok (engineOf [3, 0, 99] []) := by decide
theorem witness_RelayMovesEveryValueInOrder :
    (twoStages.cfg.iqDepth = none ∧
      ({ twoStages with eng := { twoStages.eng with st := .halted, oq := [1, 2] } } : State).eng.st = .halted ∧
      twoStages.cur + 1 < twoStages.numStages) ∧
    ((ring [] { engineOf [3, 0, 99] [] with st := .blocked, oq := [1, 2] } []).eng.st = .blocked ∧
      (ring [] { engineOf [3, 0, 99] [] with st := .blocked, oq := [1, 2] } []).cfg.iqDepth = none) := by decide
theorem witness_FinalHaltEndsTheRun :
    (ring [engineOf [99] []] { engineOf [99] [] with st := .halted } []).eng.st = .halted ∧
    (ring [engineOf [99] []] { engineOf [99] [] with st := .halted } []).cur + 1 =
      (ring [engineOf [99] []] { engineOf [99] [] with st := .halted } []).numStages ∧
    ((ring [engineOf [99] []] (engineOf [99] []) []).pst = .running ∧
      executeStep (ring [engineOf [99] []] (engineOf [99] []) []) =
        .next (ring [engineOf [99] []] { engineOf [99] [] with st := .halted } [])) ∧
    ({ State.reset with pst := .done } : State).pst = .done := ⟨by decide, by decide, ⟨rfl, rfl⟩, rfl⟩
theorem witness_FaultAbortsTheRun :
    (ring [] { engineOf [77] [] with st := .faulted, fc := .unknownOpcode, fi := 77 } []).eng.st = .faulted ∧
    ((ring [] (engineOf [77] []) []).pst = .running ∧
      executeStep (ring [] (engineOf [77] []) []) =
        .next (ring [] { engineOf [77] [] with st := .faulted, fc := .unknownOpcode, fi := 77 } [])) ∧
    ({ State.reset with pst := .aborted } : State).pst = .aborted := ⟨by decide, ⟨rfl, rfl⟩, rfl⟩
theorem witness_HaltedStageStaysInTheRing :
    (ring [] { engineOf [99] [] with st := .halted } [engineOf [99] []]).pst = .running ∧
    (ring [] { engineOf [99] [] with st := .halted } [engineOf [99] []]).eng.st = .halted ∧
    (ring [] { engineOf [99] [] with st := .halted } [engineOf [99] []]).eng.oq = [] ∧
    (ring [] { engineOf [99] [] with st := .halted } [engineOf [99] []]).cur + 1 <
      (ring [] { engineOf [99] [] with st := .halted } [engineOf [99] []]).numStages := by decide
theorem witness_OtherEnginesOnlyGainInput : step twoStages = .next (after (step twoStages)) ∧ 1 ≠ twoStages.cur ∧
    step four = .next (after (step four)) ∧ four.pst ≠ .running := ⟨rfl, by decide, rfl, by decide⟩

/-- A stage that waits for input, and one that has halted. -/
def waiting : Engine := { engineOf [3, 0] [] with st := .blocked }
def stopped : Engine := { engineOf [99] [] with st := .halted }

theorem waiting_waits : waiting.oq = [] ∧ WaitsForInput waiting :=
  ⟨rfl, rfl, rfl, pos 0, 0, by decide, by decide⟩

/-- V-OR6 once both stages wait, and the other case of 47_orchestrator.md R115: the final stage waits and the others have
halted, with one of each as the current stage. -/
theorem witness_DeadlockedRingHangs : Deadlocked (ring [waiting] waiting []) ∧ Deadlocked (ring [stopped] waiting []) ∧
    Deadlocked (ring [] stopped [waiting]) := by
  have all : ∀ e ∈ [stopped, waiting], e.oq = [] ∧ (WaitsForInput e ∨ e.st = .halted) := by
    intro e he
    rcases List.mem_cons.1 he with rfl | he
    · exact ⟨rfl, .inr rfl⟩
    · rw [List.mem_singleton.1 he]; exact ⟨waiting_waits.1, .inl waiting_waits.2⟩
  refine ⟨⟨rfl, fun e he => all e ?_, by decide⟩, ⟨rfl, all, by decide⟩, rfl, all, by decide⟩
  have he : e ∈ [waiting, waiting] := he
  simp at he; simp [he]

/-! ### Witnesses: text -/

/-- A text without a comma: one that is read, one that is skipped, and the empty one. -/
theorem witness_ProgramTextSplitsAtCommas :
    ',' ∉ ['9', '9', '\n'] ∧ imageOfText ['9', '9', '\n'] = [99] ∧ ',' ∉ ['x'] ∧ imageOfText ['x'] = [] ∧
    ',' ∉ ([] : List Char) ∧ imageOfText [] = [] := by decide +kernel
theorem witness_DecimalTokensAreRead :
    (0 < 0 ∨ 0 < 1) ∧ (0 < 7 ∨ 0 < 0) ∧ 0 < 2 ^ 63 ∧ 9223372036854775807 < 2 ^ 63 ∧ 2 ^ 63 ≤ 9223372036854775808 ∧
    9223372036854775808 ≤ 2 ^ 63 ∧ 2 ^ 63 < 9223372036854775809 ∧ [' ', '\t'].all isBlank = true ∧
    ['\r', '\n'].all isBlank = true := by decide
/-- The other direction's hypothesis, and tokens of each kind. -/
theorem witness_DecimalTokensAreRead_tokens :
    wordOfToken [' ', '+', '0', '0', '7', '\n'] = some 7 ∧ wordOfToken ['0'] = some 0 ∧ wordOfToken ['-', '0'] = some 0 ∧
    wordOfToken [] = none ∧ wordOfToken ['+'] = none ∧ wordOfToken ['-', ' ', '1'] = none ∧ wordOfToken ['1', 'x'] = none := by
  decide +kernel
theorem witness_AssemblerMatchesEncoder :
    (∀ p ∈ Instr.params (.multiply (pos 4) (imm 3) (pos 4)), p.mode = .position ∨ p.mode = .immediate) ∧
    (∀ k, opcodeDst (Instr.opcode (.multiply (pos 4) (imm 3) (pos 4))) = some k →
      ((Instr.params (.multiply (pos 4) (imm 3) (pos 4)))[k]?.map Param.mode) = some .position) := by
  refine ⟨by decide, fun k h => ?_⟩
  cases h; decide

end Sys2Proof.Tests
end

section
/-! The statements of 20_memory.md on reading a word (R34) and on the queues (R46), with the lemmas about `memWrite` and the
queue primitives that they rest on. -/

namespace Sys2Proof.Machine

/-! ### Reads -/

theorem memWrite_ok_iff {m m' : Memory} {a : Int} {v : Word} :
    memWrite m a v = .ok m' ↔ m.write a v = some m' := by
  unfold memWrite
  cases m.write a v <;> simp

theorem memRead_of_range {m : Memory} {a : Int} (hlo : 0 ≤ a) (hhi : a < (m.len : Int)) :
    ∃ w, memRead m a = .ok w ∧ m.read a = some w := by
  have hread := Memory.read_of_inRange ((Memory.inRange_iff m a).2 ⟨hlo, hhi⟩)
  exact ⟨_, memRead_ok_iff.2 hread, hread⟩

theorem memRead_ofImage {image : List Word} {a : Nat} {w : Word} (h : image[a]? = some w) :
    memRead (Memory.ofImage image) a = .ok w :=
  memRead_ok_iff.2 ((Memory.read_ofImage image a).trans h)

theorem memRead_memWrite_self {m m' : Memory} {a : Int} {v : Word} (h : memWrite m a v = .ok m') :
    memRead m' a = .ok v :=
  memRead_ok_iff.2 (Memory.read_write_self (memWrite_ok_iff.1 h))

/-! ### Queues -/

@[simp] theorem queueTail_enqueue (q : List Word) (v : Word) : queueTail (enqueue q v) = some v :=
  List.getLast?_concat

@[simp] theorem dequeue_cons (v : Word) (q : List Word) : dequeue (v :: q) = some (v, q) := rfl

theorem dequeue_eq_none_iff {q : List Word} : dequeue q = none ↔ q = [] := by
  cases q <;> simp [dequeue]

theorem dequeue_eq_some_iff {q r : List Word} {v : Word} : dequeue q = some (v, r) ↔ q = v :: r := by
  cases q <;> simp [dequeue]

/-- First in, first out: values appended one by one stand behind what the queue held, in the order they came. -/
theorem foldl_enqueue (vs q : List Word) : vs.foldl enqueue q = q ++ vs := by
  induction vs generalizing q with
  | nil => simp
  | cons v vs ih => simp [ih, enqueue]

end Sys2Proof.Machine

open Sys2Proof Sys2Proof.Machine

/-- Settles O39: each clause is a law of `Memory.read`, carried over to `memRead` by `memRead_ok_iff`. -/
theorem memReadReturnsTheWord : Obligations.MemReadReturnsTheWord :=
  ⟨fun _ _ => memRead_of_range, fun _ _ _ => memRead_ofImage, fun _ _ _ _ => memRead_memWrite_self⟩

/-- Settles O42: the order of a whole list of appends is `foldl_enqueue`, by induction on the values appended. -/
theorem queuePrimitives : Obligations.QueuePrimitives := by
  refine ⟨fun q v => ⟨rfl, queueTail_enqueue q v⟩, fun _ => dequeue_eq_none_iff, fun _ _ _ => dequeue_eq_some_iff,
    fun vs v => ?_⟩
  calc dequeue ((v :: vs).foldl enqueue [])
      _ = dequeue (v :: vs) := by rw [foldl_enqueue, List.nil_append]
      _ = some (v, vs) := dequeue_cons v vs
      _ = some (v, vs.foldl enqueue []) := by rw [foldl_enqueue, List.nil_append]
end

section
/-! The statement of 40_execution-cycle.md R67 on `execute()`, with the equations that say a call is its own first step
followed, while that step ends Running, by the rest of the same call. -/

namespace Sys2Proof.Machine

/-! ### The unfolding of a call -/

theorem executeStep_of_executes {s : State} (hs : Executes s) :
    executeStep s = runInstr (s.withEngine s.eng.begin) := by
  rcases hs with hs | hs <;> simp only [executeStep, hs]

theorem execute_of_executes {s : State} (hs : Executes s) (fuel : Nat) :
    execute fuel s = executeLoop fuel (s.withEngine s.eng.begin) := by
  rcases hs with hs | hs <;> simp only [execute, hs]

theorem execute_of_not_executes {s : State} (hs : ¬ Executes s) (fuel : Nat) : execute fuel s = some (.next s) := by
  obtain ⟨hrunning, hblocked⟩ := not_or.1 hs
  cases h : s.eng.st with
  | running => exact absurd h hrunning
  | blocked => exact absurd h hblocked
  | halted => simp only [execute, h]
  | faulted => simp only [execute, h]

theorem eq_of_execute_of_not_executes {fuel : Nat} {s t : State} (hs : ¬ Executes s)
    (h : execute fuel s = some (.next t)) : t = s := by
  rw [execute_of_not_executes hs] at h
  cases h
  rfl

/-- From Running the head of `execute()` changes nothing, so a new call goes on as the loop of the old one does. -/
theorem execute_of_running {s : State} (hs : s.eng.st = .running) (fuel : Nat) :
    execute fuel s = executeLoop fuel s := by
  rw [execute_of_executes (.inl hs), Engine.begin_of_running _ hs, State.withEngine_self]

theorem execute_zero {s : State} (hs : Executes s) : execute 0 s = none :=
  execute_of_executes hs 0

theorem executeLoop_succ {s t : State} (h : runInstr s = .next t) (k : Nat) :
    executeLoop (k + 1) s = if t.eng.st = .running then executeLoop k t else some (.next t) := by
  simp only [executeLoop, h]

theorem execute_succ {s t : State} (hs : Executes s) (h : executeStep s = .next t) (k : Nat) :
    execute (k + 1) s = if t.eng.st = .running then execute k t else some (.next t) := by
  rw [executeStep_of_executes hs] at h
  rw [execute_of_executes hs, executeLoop_succ h]
  split
  case isTrue ht => exact (execute_of_running ht k).symm
  case isFalse => rfl

/-! ### The end of a call -/

/-- By induction on the fuel: the loop returns only what a step that did not end Running has left. -/
theorem execute_ne_running {fuel : Nat} {s t : State} (h : execute fuel s = some (.next t)) : t.eng.st ≠ .running := by
  induction fuel generalizing s with
  | zero =>
    by_cases hs : Executes s
    · simp [execute_zero hs] at h
    · rw [eq_of_execute_of_not_executes hs h]
      exact (not_or.1 hs).1
  | succ k ih =>
    by_cases hs : Executes s
    · obtain ⟨e, he⟩ := executeStep_is_next s
      rw [execute_succ hs he] at h
      split at h
      case isTrue => exact ih h
      case isFalse hne => cases h; exact hne
    · rw [eq_of_execute_of_not_executes hs h]
      exact (not_or.1 hs).1

end Sys2Proof.Machine

open Sys2Proof Sys2Proof.Machine

/-- Settles O29: both kinds of step are `execute_succ`, the end of a call is `execute_ne_running`. -/
theorem executeNeverReturnsRunning : Obligations.ExecuteNeverReturnsRunning := by
  refine ⟨fun s t hs h ht fuel => ?_, fun s t hs h ht fuel => ?_, fun fuel s t h => execute_ne_running h⟩
  · rw [execute_succ hs h, if_pos ht]
  · rw [execute_succ hs h, if_neg ht]
end

section
/-! The statement of 46_host-interface.md R99 on `read()`, with the equation of a request outside a run of the ring and
those of `Engine.read` on an empty and on a non-empty `OQ`. -/

namespace Sys2Proof.Machine

theorem request_of_not_running {s : State} (hs : s.pst ≠ .running) (fuel : Nat) (q : HostRequest) :
    request fuel q s = serve fuel q s :=
  if_neg hs

theorem serve_read (fuel : Nat) (s : State) :
    serve fuel .read s = some (.value s.eng.read.1, s.withEngine s.eng.read.2) := rfl

theorem Engine.read_of_oq_nil {e : Engine} (h : e.oq = []) : e.read = (none, e) := by
  simp only [Engine.read, dequeue_eq_none_iff.2 h]

theorem Engine.read_of_oq_cons {e : Engine} {v : Word} {q : List Word} (h : e.oq = v :: q) :
    e.read = (some v, { e with oq := q }) := by
  simp only [Engine.read, dequeue_eq_some_iff.2 h]

end Sys2Proof.Machine

open Sys2Proof Sys2Proof.Machine

/-- Settles O45: `read()` is served by `Engine.read`, which keeps the Engine on an empty `OQ` and otherwise takes only the
head of `OQ` from it. -/
theorem hostReadTakesTheHead : Obligations.HostReadTakesTheHead := by
  refine fun fuel s hs => ⟨fun hnil => ?_, fun v q hcons => ?_⟩
  · rw [request_of_not_running hs, serve_read, Engine.read_of_oq_nil hnil, State.withEngine_self]
  · rw [request_of_not_running hs, serve_read, Engine.read_of_oq_cons hcons, State.withEngine]
end

section
/-! The statements of 47_orchestrator.md on the set-up (R108) and the relay (R110): what loading the stages gives when no
`IQ` can be full, and what a relay makes of the ring as a list, at whichever place the current stage stands. -/

namespace Sys2Proof.Machine

/-! ### Set-up -/

theorem Engine.write_unbounded {cfg : Config} (h : cfg.iqDepth = none) (v : Word) (e : Engine) :
    e.write cfg v = .ok { e with iq := e.iq ++ [v] } := by
  simp [Engine.write, queueFull, h, enqueue]

theorem Engine.load_ok {cfg : Config} {image : List Word} {e : Engine} (h : Engine.load cfg image = .ok e) :
    e = { Engine.reset with mem := Memory.ofImage image } := by
  unfold Engine.load at h
  split at h
  case isTrue => exact (Except.ok.inj h).symm
  case isFalse => cases h

theorem loadStage_unbounded {cfg : Config} (hcfg : cfg.iqDepth = none) {image : List Word} {e : Engine}
    (he : Engine.load cfg image = .ok e) (p : Word) : loadStage cfg image p = .ok { e with iq := [p] } := by
  have hiq : e.iq = [] := by rw [Engine.load_ok he]; rfl
  simp only [loadStage, he, Engine.write_unbounded hcfg, hiq, List.nil_append]

/-- By induction on the phases: one stage for each, in their order. -/
theorem loadStages_unbounded {cfg : Config} (hcfg : cfg.iqDepth = none) {image : List Word} {e : Engine}
    (he : Engine.load cfg image = .ok e) (ps : List Word) :
    loadStages cfg image ps = .ok (ps.map fun p => { e with iq := [p] }) := by
  induction ps with
  | nil => rfl
  | cons p ps ih => simp only [loadStages, loadStage_unbounded hcfg he, ih, List.map_cons]

theorem setup_unbounded {cfg : Config} (hcfg : cfg.iqDepth = none) {image : List Word} {e : Engine}
    (he : Engine.load cfg image = .ok e) (p : Word) (ps : List Word) (signal : Word) :
    setup cfg image (p :: ps) signal = .ok
      { cfg := cfg, before := [], eng := { e with iq := [p, signal] }, after := ps.map fun q => { e with iq := [q] },
        pst := .running, result := none, abortStage := 0, abortFc := .none, abortFi := 0 } := by
  simp only [setup, loadStages_unbounded hcfg he, List.map_cons, Engine.write_unbounded hcfg, List.cons_append,
    List.nil_append]

/-! ### Relay -/

/-- The next stage after the relay has written these values to it. -/
def Engine.gained (vs : List Word) (e : Engine) : Engine := { e with iq := e.iq ++ vs }

theorem modify_append_length_add (f : Engine → Engine) (l l' : List Engine) (k : Nat) :
    (l ++ l').modify (l.length + k) f = l ++ l'.modify k f :=
  List.modifyTailIdx_add ..

theorem modify_append_length (f : Engine → Engine) (l l' : List Engine) :
    (l ++ l').modify l.length f = l ++ l'.modify 0 f :=
  modify_append_length_add f l l' 0

theorem State.relayNext_unbounded {s : State} (hcfg : s.cfg.iqDepth = none) : ∃ t, s.relayNext = .ok t := by
  unfold State.relayNext
  split <;> simp only [relayInto_unbounded hcfg, Except.ok.injEq, exists_eq']

/-- `(CUR + 1) mod N` is the next place, until the last stage is reached. -/
theorem State.nextCur_of_after_ne_nil {s : State} (h : s.after ≠ []) : (s.cur + 1) % s.numStages = s.cur + 1 := by
  have := List.length_pos_iff.2 h
  exact Nat.mod_eq_of_lt (by simp only [State.cur, State.numStages]; omega)

theorem State.nextCur_of_after_eq_nil {s : State} (h : s.after = []) : (s.cur + 1) % s.numStages = 0 := by
  simp [State.cur, State.numStages, h]

theorem State.relayNext_frame {s t : State} (h : s.relayNext = .ok t) :
    t = { s with before := t.before, eng := t.eng, after := t.after } := by
  obtain ⟨e, rest, -, rfl, -⟩ | ⟨e, rest, -, -, rfl, -⟩ | ⟨-, -, rfl, -⟩ := State.relayNext_ok h <;> rfl

theorem State.relayNext_cur {s t : State} (h : s.relayNext = .ok t) : t.cur = (s.cur + 1) % s.numStages := by
  obtain ⟨e, rest, hafter, rfl, -⟩ | ⟨e, rest, hafter, -, rfl, -⟩ | ⟨hafter, hbefore, rfl, -⟩ := State.relayNext_ok h
  · rw [State.nextCur_of_after_ne_nil (by simp [hafter])]
    simp [State.cur]
  · rw [State.nextCur_of_after_eq_nil hafter]
    rfl
  · rw [State.nextCur_of_after_eq_nil hafter]
    simp [State.cur, hbefore]

/-- A relay empties the `OQ` at the current place and fills the `IQ` at the next one; a stage alone in the ring stands at
both places. -/
theorem State.relayNext_stages {s t : State} (h : s.relayNext = .ok t) :
    t.stages = (s.stages.modify s.cur Engine.drained).modify ((s.cur + 1) % s.numStages) (Engine.gained s.eng.oq) := by
  obtain ⟨e, rest, hafter, rfl, -⟩ | ⟨e, rest, hafter, hbefore, rfl, -⟩ | ⟨hafter, hbefore, rfl, -⟩ :=
    State.relayNext_ok h
  · rw [State.nextCur_of_after_ne_nil (by simp [hafter])]
    simp [State.stages, State.cur, hafter, modify_append_length, modify_append_length_add, Engine.gained]
  · rw [State.nextCur_of_after_eq_nil hafter]
    simp [State.stages, State.cur, hafter, hbefore, modify_append_length, Engine.gained]
  · rw [State.nextCur_of_after_eq_nil hafter]
    simp [State.stages, State.cur, hafter, hbefore, Engine.gained]

theorem State.stages_length (s : State) : s.stages.length = s.numStages := by
  simp only [State.stages, State.numStages, List.length_append, List.length_cons]
  omega

theorem State.relayNext_numStages {s t : State} (h : s.relayNext = .ok t) : t.numStages = s.numStages := by
  rw [← t.stages_length, State.relayNext_stages h, List.length_modify, List.length_modify, s.stages_length]

theorem State.relayNext_getElem? {s t : State} (h : s.relayNext = .ok t) (j : Nat) :
    t.stages[j]? = s.stages[j]?.map (fun e =>
      { e with
        oq := if j = s.cur then [] else e.oq
        iq := if j = (s.cur + 1) % s.numStages then e.iq ++ s.eng.oq else e.iq }) := by
  rw [State.relayNext_stages h, List.getElem?_modify, List.getElem?_modify]
  cases s.stages[j]? with
  | none => rfl
  | some e =>
    simp only [Option.map_eq_map, Option.map_some, eq_comm (a := j)]
    split <;> split <;> rfl

/-- A round ends in a relay after Blocked, and after Halted in any stage but the final one. -/
theorem State.afterStep_of_relayNext {s t : State}
    (hst : s.eng.st = .blocked ∨ (s.eng.st = .halted ∧ s.cur + 1 < s.numStages)) (h : s.relayNext = .ok t) :
    s.afterStep = .next t := by
  obtain hblocked | ⟨hhalted, hnotFinal⟩ := hst
  · simp [State.afterStep, State.endRound, hblocked, h]
  · have hafter : s.after ≠ [] := by
      intro hnil
      simp [State.cur, State.numStages, hnil] at hnotFinal
    simp [State.afterStep, State.endRound, hhalted, hafter, h]

end Sys2Proof.Machine

open Sys2Proof Sys2Proof.Machine

/-- Settles O50: `setup_unbounded` writes out the whole state, and each of its stages is the fresh Engine of `load` with
only `IQ` changed. -/
theorem setupStartsEveryStage : Obligations.SetupStartsEveryStage := by
  intro cfg image p ps signal e hcfg he
  refine ⟨_, setup_unbounded hcfg he p ps signal, rfl, fun x hx => ?_, rfl, ?_, rfl, rfl, rfl⟩
  · have hfresh : ∃ q, x = { e with iq := q } := by
      obtain rfl | hx := List.mem_cons.1 hx
      · exact ⟨_, rfl⟩
      · obtain ⟨q, -, rfl⟩ := List.mem_map.1 hx
        exact ⟨_, rfl⟩
    obtain ⟨q, rfl⟩ := hfresh
    rw [Engine.load_ok he]
    exact ⟨rfl, rfl, rfl, rfl⟩
  · simp [State.numStages]

/-- Settles O51: with an unbounded `IQ` the relay is not turned away, and `relayNext_stages` says at which places of the
ring it changes a stage. -/
theorem relayMovesEveryValueInOrder : Obligations.RelayMovesEveryValueInOrder := by
  intro s hcfg hst
  obtain ⟨t, h⟩ := State.relayNext_unbounded hcfg
  exact ⟨t, State.afterStep_of_relayNext hst h, State.relayNext_cur h, State.relayNext_numStages h,
    State.relayNext_frame h, State.relayNext_getElem? h⟩
end

section
/-! The statements of 30_encoding.md: the encoder and the decoder as inverses, what a decoded field is, and which digits
of an instruction word are read. An instruction is its opcode with its parameters, so each statement is one about the
opcode's code and one about the mode digits. -/

namespace Sys2Proof

/-! ### Instructions as an opcode and parameters -/

theorem Instr.wf_iff_params (i : Instr) : i.wf = true ↔ ∀ p ∈ i.params, p.wf = true := by
  cases i <;> simp [Instr.wf, Instr.params, and_assoc]

theorem Instr.params_length (i : Instr) : i.params.length = i.opcode.numParams := by
  cases i <;> rfl

/-- An instruction is determined by its opcode and its parameters. -/
theorem Instr.eq_of_opcode_params {i j : Instr} (ho : i.opcode = j.opcode) (hp : i.params = j.params) : i = j := by
  cases i <;> cases j <;> simp_all [Instr.opcode, Instr.params]

theorem Opcode.code_lt (op : Opcode) : op.code < 100 := by cases op <;> decide

theorem Opcode.numParams_le (op : Opcode) : op.numParams ≤ 3 := by cases op <;> decide

end Sys2Proof

namespace Sys2Proof.Machine

/-! ### Mode digits of an instruction word -/

theorem modeOf_wf (ir : Word) (k : Nat) : (modeOf ir k).wf = true :=
  Mode.ofDigit_wf (Nat.mod_lt _ (by decide))

theorem modeOf_digit (ir : Word) (k : Nat) : (modeOf ir k).digit = ir.toNat / 10 ^ (k + 1) % 10 :=
  Mode.digit_ofDigit _

theorem modeOf_digit_toInt {ir : Word} (h : 0 ≤ ir.toInt) (k : Nat) :
    ((modeOf ir k).digit : Int) = ir.toInt / 10 ^ (k + 1) % 10 := by
  rw [modeOf_digit, toInt_of_nonneg (by omega)]
  norm_cast

/-- Well-formed modes with the same digit are the same mode. -/
theorem Mode.eq_of_digit_eq {m m' : Mode} (hm : m.wf = true) (hm' : m'.wf = true) (h : m.digit = m'.digit) : m = m' := by
  rw [← Mode.ofDigit_digit hm, ← Mode.ofDigit_digit hm', h]

/-! ### The word of an instruction -/

theorem modeDigits_lt {ps : List Param} (h : ∀ p ∈ ps, p.wf = true) : modeDigits ps < 10 ^ ps.length := by
  induction ps with
  | nil => decide
  | cons p ps ih =>
    rw [List.forall_mem_cons] at h
    have hd := Mode.digit_lt h.1
    have hr := ih h.2
    simp only [modeDigits, List.length_cons, Nat.pow_succ]
    omega

/-- The `k`-th digit of the mode digits is the digit of parameter `k + 1`. -/
theorem modeDigits_digit {ps : List Param} (h : ∀ p ∈ ps, p.wf = true) (k : Nat) (hk : k < ps.length) :
    modeDigits ps / 10 ^ k % 10 = ps[k].mode.digit := by
  induction ps generalizing k with
  | nil => simp at hk
  | cons p ps ih =>
    rw [List.forall_mem_cons] at h
    have hd := Mode.digit_lt h.1
    cases k with
    | zero => simp only [modeDigits, List.getElem_cons_zero]; omega
    | succ k =>
      have hshift : modeDigits (p :: ps) / 10 = modeDigits ps := by simp only [modeDigits]; omega
      rw [Nat.pow_succ', ← Nat.div_div_eq_div_mul, hshift]
      exact ih h.2 k (by simpa using hk)

/-- Two digits of opcode and up to three of modes fit in a word, so the encoder drops none. -/
theorem encodeHead_toNat {i : Instr} (h : i.wf = true) :
    (encodeHead i).toNat = i.opcode.code + 100 * modeDigits i.params ∧ (encodeHead i).toNat < 10 ^ 5 := by
  have hm := modeDigits_lt ((Instr.wf_iff_params i).1 h)
  have hp : 10 ^ i.params.length ≤ 10 ^ 3 :=
    Nat.pow_le_pow_right (by decide) (i.params_length ▸ i.opcode.numParams_le)
  have hc := i.opcode.code_lt
  have heq : (encodeHead i).toNat = i.opcode.code + 100 * modeDigits i.params :=
    Nat.mod_eq_of_lt (by omega)
  exact ⟨heq, by omega⟩

theorem decodeOpcode_encodeHead {i : Instr} (h : i.wf = true) : decodeOpcode (encodeHead i) = some i.opcode := by
  obtain ⟨heq, hlt⟩ := encodeHead_toNat h
  have hc := i.opcode.code_lt
  have hint : (encodeHead i).toInt = (encodeHead i).toNat := BitVec.toInt_eq_toNat_of_lt (by omega)
  rw [decodeOpcode_some]
  omega

theorem modeOf_encodeHead {i : Instr} (h : i.wf = true) (k : Nat) (hk : k < i.params.length) :
    modeOf (encodeHead i) (k + 1) = i.params[k].mode := by
  have hps := (Instr.wf_iff_params i).1 h
  refine Mode.eq_of_digit_eq (modeOf_wf _ _) (hps _ (List.getElem_mem hk)) ?_
  have hc := i.opcode.code_lt
  calc (modeOf (encodeHead i) (k + 1)).digit
      _ = (i.opcode.code + 100 * modeDigits i.params) / 10 ^ 2 / 10 ^ k % 10 := by
          rw [modeOf_digit, (encodeHead_toNat h).1, Nat.div_div_eq_div_mul, ← Nat.pow_add, Nat.add_comm 2 k]
      _ = modeDigits i.params / 10 ^ k % 10 := by
          rw [show (i.opcode.code + 100 * modeDigits i.params) / 10 ^ 2 = modeDigits i.params by omega]
      _ = i.params[k].mode.digit := modeDigits_digit hps k hk

/-! ### Decoding -/

theorem decode_cons {ir : Word} {op : Opcode} (h : decodeOpcode ir = some op) (ps : List Word) :
    decode (ir :: ps) = decodeParams ir ps op := by
  simp only [decode, h]

/-- An instruction whose parameters are the words that follow, under the modes of the instruction word, is the one that
is decoded. -/
theorem decodeParams_eq_ok {ir : Word} {ps : List Word} {i : Instr} (hl : i.params.length ≤ ps.length)
    (hw : i.params.map Param.word = ps.take i.params.length)
    (hm : ∀ k (hk : k < i.params.length), i.params[k].mode = modeOf ir (k + 1)) :
    decodeParams ir ps i.opcode = .ok i := by
  cases hd : decodeParams ir ps i.opcode with
  | error r =>
    obtain ⟨hlt, -⟩ := decodeParams_error hd
    rw [i.params_length] at hl
    omega
  | ok j =>
    obtain ⟨hop, hlen, -, hword, hmode⟩ := decodeParams_ok hd
    rw [← i.params_length] at hlen hword
    have hparams : j.params = i.params := by
      refine List.ext_getElem hlen fun k hj hi => ?_
      have hk : (j.params.map Param.word)[k]? = (i.params.map Param.word)[k]? := by rw [hword, hw]
      simp only [List.getElem?_map, List.getElem?_eq_getElem, hj, hi, Option.map_some, Option.some.injEq] at hk
      have hmk := (hmode k hj).trans (hm k hi).symm
      cases hjk : j.params[k]
      cases hik : i.params[k]
      simp_all
    rw [Instr.eq_of_opcode_params hop hparams]

/-- The decoder reads of an instruction word only the modes of the parameters its opcode has. -/
theorem decodeParams_congr {ir ir' : Word} {op : Opcode} (ps : List Word)
    (h : ∀ k, k < op.numParams → modeOf ir' (k + 1) = modeOf ir (k + 1)) :
    decodeParams ir' ps op = decodeParams ir ps op := by
  cases hd : decodeParams ir ps op with
  | ok i =>
    obtain ⟨rfl, hn, hl, hw, hm⟩ := decodeParams_ok hd
    rw [← hn] at h hl hw
    exact decodeParams_eq_ok hl hw fun k hk => (hm k hk).trans (h k hk).symm
  | error r =>
    obtain ⟨hlt, rfl⟩ := decodeParams_error hd
    cases hd' : decodeParams ir' ps op with
    | ok j =>
      obtain ⟨-, -, hle, -⟩ := decodeParams_ok hd'
      omega
    | error r' => rw [(decodeParams_error hd').2]

end Sys2Proof.Machine

open Sys2Proof Sys2Proof.Machine

/-- Settles O1: the head of the encoding selects the opcode and the modes, and the words behind it are the parameters. -/
theorem decodeInvertsEncode : Obligations.DecodeInvertsEncode := by
  intro i rest hwf
  calc decode (encode i ++ rest)
      _ = decodeParams (encodeHead i) (i.params.map Param.word ++ rest) i.opcode :=
          decode_cons (decodeOpcode_encodeHead hwf) _
      _ = .ok i := decodeParams_eq_ok (by simp) (by simp) fun k hk => (modeOf_encodeHead hwf k hk).symm

/-- Settles O2: `decodeParams_ok` names opcode, words and modes, and a mode read from a word is its digit. -/
theorem decodedFieldsAreTheDigits : Obligations.DecodedFieldsAreTheDigits := by
  intro ir ps i h
  obtain ⟨_, _, op, heq, hop, hd⟩ := decode_ok h
  obtain ⟨rfl, rfl⟩ := List.cons.inj heq
  obtain ⟨hnonneg, hcode⟩ := decodeOpcode_some.1 hop
  obtain ⟨rfl, hlen, hle, hword, hmode⟩ := decodeParams_ok hd
  refine ⟨(Instr.wf_iff_params i).2 fun p hp => ?_, hnonneg, hcode.symm, hlen, by omega, by rw [hlen, hword],
    fun k hk => ?_⟩
  · obtain ⟨k, hk, rfl⟩ := List.getElem_of_mem hp
    rw [Param.wf, hmode k hk]
    exact modeOf_wf _ _
  · rw [hmode k hk, modeOf_digit_toInt hnonneg]

/-- Settles O3: the opcode is the low two digits, and `decodeParams_congr` says which other digits are read. -/
theorem ignoredDigitsChangeNothing : Obligations.IgnoredDigitsChangeNothing := by
  intro ir ir' ps op hop hnonneg hlow hdigits
  obtain ⟨hir, hcode⟩ := decodeOpcode_some.1 hop
  rw [decode_cons hop, decode_cons (decodeOpcode_some.2 ⟨hnonneg, hlow.trans hcode⟩)]
  refine decodeParams_congr ps fun k hk => Mode.eq_of_digit_eq (modeOf_wf _ _) (modeOf_wf _ _) ?_
  have hk := hdigits (k + 1) (by omega) (by omega)
  rwa [← modeOf_digit_toInt hnonneg, ← modeOf_digit_toInt hir, Nat.cast_inj] at hk

/-- Settles O4, by evaluating the decoder on the words the spec writes out. -/
theorem sampleWordsDecode : Obligations.SampleWordsDecode := by
  unfold Obligations.SampleWordsDecode
  decide
end

section
/-! The statements on the invariant (10_state.md, 47_orchestrator.md): that each kind of step keeps it, that a run's set-up and
the machine at reset meet it, and what follows for runs of any length. One Engine's part is `executeStep_keeps_ok`; the
ring's part rests on what a relay leaves alone, `State.relayNext_map`. -/

namespace Sys2Proof.Machine

/-! ### The step, by `PST` -/

theorem step_of_idle {s : State} (hp : s.pst = .idle) : step s = executeStep s := by
  simp only [step, hp]

theorem step_of_done {s : State} (hp : s.pst = .done) : step s = .next s := by
  simp only [step, hp]

theorem step_of_aborted {s : State} (hp : s.pst = .aborted) : step s = .next s := by
  simp only [step, hp]

theorem step_of_running {s t : State} (hp : s.pst = .running) (h : executeStep s = .next t) : step s = t.afterStep := by
  simp only [step, hp, h]

theorem State.afterStep_of_running {s : State} (h : s.eng.st = .running) : s.afterStep = .next s :=
  if_pos h

theorem State.afterStep_of_endRound {s t : State} (hst : s.eng.st ≠ .running) (h : s.endRound = .ok t) :
    s.afterStep = .next t := by
  rw [State.afterStep, if_neg hst, h]

/-! ### One Engine -/

theorem fits_zero (capacity : Option Nat) : fits capacity 0 = true := by
  cases capacity <;> simp [fits]

/-- What is not full has room for one more value. -/
theorem fits_append_of_not_full {depth : Option Nat} {q : List Word} (h : queueFull depth q = false) (v : Word) :
    fits depth (q ++ [v]).length = true := by
  cases depth with
  | none => rfl
  | some d =>
    simp only [queueFull, decide_eq_false_iff_not] at h
    simp only [fits, List.length_append, List.length_singleton, decide_eq_true_eq]
    omega

theorem fits_of_le {capacity : Option Nat} {m n : Nat} (hle : m ≤ n) (h : fits capacity n = true) :
    fits capacity m = true := by
  cases capacity with
  | none => rfl
  | some c =>
    simp only [fits, decide_eq_true_eq] at h ⊢
    omega

theorem faultInfoOk_none (cfg : Config) : faultInfoOk cfg .none 0 := by
  simp [faultInfoOk]

/-- The fault of an instruction has a code, with the information the fault table gives beside it. -/
theorem FaultRecord.infoOk {s : State} {f : FaultInfo} (h : FaultRecord s f) :
    f.code ≠ .none ∧ faultInfoOk s.cfg f.code f.info := by
  obtain hc | ⟨hc, hi⟩ | ⟨hc, hi⟩ | ⟨hc, hfull⟩ := h
  · simp [faultInfoOk, hc]
  · simpa [faultInfoOk, hc] using hi
  · simpa [faultInfoOk, hc] using hi
  · have hdepth : s.cfg.oqDepth ≠ none := by
      intro hnone
      simp [hnone, queueFull] at hfull
    simp [faultInfoOk, hc, hdepth]

theorem fetch_error_infoOk {e : Engine} {f : FaultInfo} (cfg : Config) (h : e.fetch = .error f) :
    f.code ≠ .none ∧ faultInfoOk cfg f.code f.info := by
  obtain hc | ⟨hc, hi⟩ := Engine.fetch_error h
  · simp [faultInfoOk, hc]
  · simp [faultInfoOk, hc, hi]

theorem Engine.takeFault_keeps_ok {cfg : Config} {e : Engine} {f : FaultInfo} (h : e.Ok cfg)
    (hf : f.code ≠ .none ∧ faultInfoOk cfg f.code f.info) : (e.begin.takeFault f).Ok cfg := by
  obtain ⟨hmem, hip, hlen, hiq, hoq, -, -⟩ := h
  exact ⟨hmem, hip, hlen, hiq, hoq, ⟨fun _ => hf.1, fun _ => rfl⟩, hf.2⟩

/-- An instruction that was fetched and completes keeps its Engine in order: `IP + width` is still an index `0 .. L`,
because the whole instruction lies within Memory. -/
theorem effect_keeps_ok {s : State} {i : Instr} {e : Engine} (h : s.eng.Ok s.cfg) (hs : s.eng.st = .running)
    (hroom : s.eng.ip + i.width ≤ s.eng.mem.len) (he : effect i s = .ok e) : e.Ok s.cfg := by
  obtain ⟨hwf, hip, hlen, hiq, hoq, hst, hinfo⟩ := h
  obtain ⟨hmem', hip', hiq', hoq', hst', hfc', hfi'⟩ := effect_ok he
  have hmem : e.mem.wf = true ∧ e.mem.len = s.eng.mem.len := by
    obtain heq | ⟨t, v, hw⟩ := hmem'
    · rw [heq]; exact ⟨hwf, rfl⟩
    · exact ⟨Memory.write_wf hw hwf, Memory.write_len hw⟩
  refine ⟨hmem.1, by omega, by rwa [hmem.2], ?_, ?_, ?_, by rwa [hfc', hfi']⟩
  · obtain heq | ⟨v, heq⟩ := hiq'
    · rwa [heq]
    · exact fits_of_le (by simp [heq]) hiq
  · obtain heq | ⟨v, hroom, heq⟩ := hoq'
    · rwa [heq]
    · rw [heq]; exact fits_append_of_not_full hroom v
  · rw [hs] at hst
    rw [hfc', ← hst]
    obtain hst' | hst' | hst' := hst' <;> simp [hst', hs]

theorem begin_keeps_ok {cfg : Config} {e : Engine} (h : e.Ok cfg) (hst : e.st ≠ .faulted) : e.begin.Ok cfg := by
  obtain ⟨hmem, hip, hlen, hiq, hoq, hfc, hinfo⟩ := h
  exact ⟨hmem, hip, hlen, hiq, hoq, by simpa [hst] using hfc, hinfo⟩

theorem executeStep_keeps_ok {s t : State} (hok : s.eng.Ok s.cfg) (h : executeStep s = .next t) : t.eng.Ok s.cfg := by
  obtain ⟨-, rfl⟩ | ⟨hs, hrun⟩ := executeStep_cases h
  · exact hok
  · have hbegin : s.eng.begin.Ok s.cfg := begin_keeps_ok hok (by rcases hs with hs | hs <;> simp [hs])
    obtain ⟨f, hf, rfl⟩ | ⟨i, f, -, hf, rfl⟩ | ⟨i, e, hi, he, rfl⟩ := hrun
    · exact Engine.takeFault_keeps_ok hok (fetch_error_infoOk s.cfg hf)
    · exact Engine.takeFault_keeps_ok hok (effect_error hf).infoOk
    · exact effect_keeps_ok (s := s.withEngine s.eng.begin) hbegin rfl (Engine.fetch_ok_room hi) he

/-! ### All Engines -/

theorem State.enginesOk_iff (s : State) :
    s.EnginesOk ↔ (∀ e ∈ s.before, e.Ok s.cfg) ∧ s.eng.Ok s.cfg ∧ ∀ e ∈ s.after, e.Ok s.cfg := by
  rw [State.EnginesOk, State.stages, List.forall_mem_append, List.forall_mem_cons]

theorem State.withEngine_keeps_enginesOk {s : State} {e : Engine} (h : s.EnginesOk) (he : e.Ok s.cfg) :
    (s.withEngine e).EnginesOk := by
  obtain ⟨hbefore, -, hafter⟩ := s.enginesOk_iff.1 h
  exact (State.enginesOk_iff _).2 ⟨hbefore, he, hafter⟩

theorem executeStep_keeps_enginesOk {s t : State} (h : s.EnginesOk) (hst : executeStep s = .next t) : t.EnginesOk := by
  rw [executeStep_next hst]
  exact State.withEngine_keeps_enginesOk h (executeStep_keeps_ok (h _ s.eng_mem_stages) hst)

theorem Engine.drained_keeps_ok {cfg : Config} {e : Engine} (h : e.Ok cfg) : e.drained.Ok cfg := by
  obtain ⟨hmem, hip, hlen, hiq, -, hfc, hinfo⟩ := h
  exact ⟨hmem, hip, hlen, hiq, fits_zero _, hfc, hinfo⟩

theorem Engine.withIq_keeps_ok {cfg : Config} {e : Engine} {q : List Word} (h : e.Ok cfg)
    (hq : fits cfg.iqDepth q.length = true) : ({ e with iq := q } : Engine).Ok cfg := by
  obtain ⟨hmem, hip, hlen, -, hoq, hfc, hinfo⟩ := h
  exact ⟨hmem, hip, hlen, hq, hoq, hfc, hinfo⟩

theorem Engine.iq_fits {cfg : Config} {e : Engine} (h : e.Ok cfg) : fits cfg.iqDepth e.iq.length = true := by
  obtain ⟨-, -, -, hiq, -⟩ := h
  exact hiq

theorem State.relayNext_keeps_enginesOk {s t : State} (h : s.EnginesOk) (hr : s.relayNext = .ok t) : t.EnginesOk := by
  obtain ⟨hbefore, heng, hafter⟩ := s.enginesOk_iff.1 h
  have hdrained := Engine.drained_keeps_ok heng
  rw [State.enginesOk_iff]
  obtain ⟨e, rest, ha, rfl, hfits⟩ | ⟨e, rest, ha, hb, rfl, hfits⟩ | ⟨ha, hb, rfl, hfits⟩ := State.relayNext_ok hr
  · rw [ha, List.forall_mem_cons] at hafter
    refine ⟨?_, Engine.withIq_keeps_ok hafter.1 (hfits (Engine.iq_fits hafter.1)), hafter.2⟩
    rw [List.forall_mem_append, List.forall_mem_singleton]
    exact ⟨hbefore, hdrained⟩
  · rw [hb, List.forall_mem_cons] at hbefore
    refine ⟨by simp, Engine.withIq_keeps_ok hbefore.1 (hfits (Engine.iq_fits hbefore.1)), ?_⟩
    rw [List.forall_mem_append, List.forall_mem_singleton]
    exact ⟨hbefore.2, hdrained⟩
  · exact ⟨hbefore, Engine.withIq_keeps_ok hdrained (hfits (Engine.iq_fits heng)), hafter⟩

theorem State.endRound_keeps_enginesOk {s t : State} (h : s.EnginesOk) (hr : s.endRound = .ok t) : t.EnginesOk := by
  obtain ⟨-, rfl⟩ | ⟨-, -, rfl⟩ | ⟨-, -, hrelay⟩ := State.endRound_ok hr
  · exact h
  · exact h
  · exact State.relayNext_keeps_enginesOk h hrelay

theorem step_keeps_enginesOk {s t : State} (h : s.EnginesOk) (hst : step s = .next t) : t.EnginesOk := by
  obtain ⟨-, rfl⟩ | ⟨-, he⟩ | ⟨-, u, he, ⟨-, rfl⟩ | ⟨-, hr⟩⟩ := step_cases hst
  · exact h
  · exact executeStep_keeps_enginesOk h he
  · exact executeStep_keeps_enginesOk h he
  · exact State.endRound_keeps_enginesOk (executeStep_keeps_enginesOk h he) hr

/-! ### What a step leaves alone -/

/-- A relay moves queue values only: it keeps, stage by stage, whatever does not look at the queues. -/
theorem State.relayNext_map {α : Type} {f : Engine → α} (hf : ∀ e iq oq, f { e with iq := iq, oq := oq } = f e)
    {s t : State} (h : s.relayNext = .ok t) : t.stages.map f = s.stages.map f := by
  refine List.ext_getElem? fun j => ?_
  rw [List.getElem?_map, List.getElem?_map, State.relayNext_getElem? h, Option.map_map]
  congr 1
  exact funext fun e => hf e _ _

theorem effect_mem_len {i : Instr} {s : State} {e : Engine} (h : effect i s = .ok e) : e.mem.len = s.eng.mem.len := by
  obtain ⟨heq | ⟨t, v, hw⟩, -⟩ := effect_ok h
  · rw [heq]
  · exact Memory.write_len hw

theorem executeStep_mem_len {s t : State} (h : executeStep s = .next t) : t.eng.mem.len = s.eng.mem.len := by
  obtain ⟨-, rfl⟩ | ⟨-, ⟨f, -, rfl⟩ | ⟨i, f, -, -, rfl⟩ | ⟨i, e, -, he, rfl⟩⟩ := executeStep_cases h
  · rfl
  · rfl
  · rfl
  · exact effect_mem_len (s := s.withEngine s.eng.begin) he

/-- The lengths of all Memories, and so the number of stages, with the parameters. -/
def State.sizes (s : State) : List Nat × Config := (s.stages.map fun e => e.mem.len, s.cfg)

theorem executeStep_sizes {s t : State} (h : executeStep s = .next t) : t.sizes = s.sizes := by
  have hlen := executeStep_mem_len h
  rw [executeStep_next h]
  simp [State.sizes, State.stages, hlen]

theorem State.endRound_sizes {s t : State} (h : s.endRound = .ok t) : t.sizes = s.sizes := by
  obtain ⟨-, rfl⟩ | ⟨-, -, rfl⟩ | ⟨-, -, hr⟩ := State.endRound_ok h
  · rfl
  · rfl
  · have hcfg : t.cfg = s.cfg := by rw [State.relayNext_frame hr]
    rw [State.sizes, State.sizes, State.relayNext_map (fun _ _ _ => rfl) hr, hcfg]

theorem step_sizes {s t : State} (h : step s = .next t) : t.sizes = s.sizes := by
  obtain ⟨-, rfl⟩ | ⟨-, he⟩ | ⟨-, u, he, ⟨-, rfl⟩ | ⟨-, hr⟩⟩ := step_cases h
  · rfl
  · exact executeStep_sizes he
  · exact executeStep_sizes he
  · exact (State.endRound_sizes hr).trans (executeStep_sizes he)

theorem step_cfg {s t : State} (h : step s = .next t) : t.cfg = s.cfg :=
  congrArg Prod.snd (step_sizes h)

/-! ### The ring -/

/-- What holds of a run while a round goes on, whatever the current stage has come to: no other stage has a value in its
`OQ`, none is Faulted, and the final stage, if it is another one, is not Halted (47_orchestrator.md R109 to R112). -/
structure State.InRound (s : State) : Prop where
  othersDrained : ∀ e ∈ s.before ++ s.after, e.oq = []
  othersNotFaulted : ∀ e ∈ s.before ++ s.after, e.st ≠ .faulted
  otherFinalNotHalted : ∀ e ∈ s.after.getLast?, e.st ≠ .halted
  noResult : s.result = none

/-- In a run, `RingOk` is `InRound` and that the current stage gives no reason to end the run. -/
theorem State.ringOk_of_running {s : State} (hp : s.pst = .running) :
    s.RingOk ↔ s.InRound ∧ s.eng.st ≠ .faulted ∧ ¬ (s.eng.st = .halted ∧ s.after = []) := by
  have hfaulted : (∀ e ∈ s.stages, e.st ≠ .faulted) ↔
      (∀ e ∈ s.before ++ s.after, e.st ≠ .faulted) ∧ s.eng.st ≠ .faulted := by
    simp only [State.stages, List.forall_mem_append, List.forall_mem_cons]
    tauto
  have hhalted : (∀ e ∈ s.stages.getLast?, e.st ≠ .halted) ↔
      (∀ e ∈ s.after.getLast?, e.st ≠ .halted) ∧ ¬ (s.eng.st = .halted ∧ s.after = []) := by
    cases hl : s.after.getLast? with
    | none => simp [State.stages, List.getLast?_append, List.getLast?_cons, List.getLast?_eq_none_iff.1 hl]
    | some e =>
      have hne : s.after ≠ [] := by rintro hnil; simp [hnil] at hl
      simp [State.stages, List.getLast?_append, List.getLast?_cons, hl, hne]
  constructor
  · rintro ⟨hrun, -, -, hres⟩
    obtain ⟨hoq, hf, hh⟩ := hrun hp
    rw [hfaulted] at hf
    rw [hhalted] at hh
    exact ⟨⟨hoq, hf.1, hh.1, hres (by simp [hp])⟩, hf.2, hh.2⟩
  · rintro ⟨⟨hoq, hf, hh, hres⟩, hef, heh⟩
    exact ⟨fun _ => ⟨hoq, hfaulted.2 ⟨hf, hef⟩, hhalted.2 ⟨hh, heh⟩⟩, by simp [hp], by simp [hp], fun _ => hres⟩

theorem executeStep_keeps_inRound {s t : State} (h : s.InRound) (he : executeStep s = .next t) : t.InRound := by
  obtain ⟨hoq, hf, hh, hres⟩ := h
  rw [executeStep_next he]
  exact ⟨hoq, hf, hh, hres⟩

/-- Once the current stage is drained, the stage that is next has every other stage drained around it. -/
theorem State.relayNext_othersDrained {s t : State} (h : ∀ e ∈ s.before ++ s.after, e.oq = [])
    (hr : s.relayNext = .ok t) : ∀ e ∈ t.before ++ t.after, e.oq = [] := by
  rw [List.forall_mem_append] at h ⊢
  obtain ⟨hbefore, hafter⟩ := h
  obtain ⟨e, rest, ha, rfl, -⟩ | ⟨e, rest, ha, hb, rfl, -⟩ | ⟨-, -, rfl, -⟩ := State.relayNext_ok hr
  · rw [ha, List.forall_mem_cons] at hafter
    exact ⟨List.forall_mem_append.2 ⟨hbefore, by simp⟩, hafter.2⟩
  · rw [hb, List.forall_mem_cons] at hbefore
    exact ⟨by simp, List.forall_mem_append.2 ⟨hbefore.2, by simp⟩⟩
  · exact ⟨hbefore, hafter⟩

theorem State.relayNext_keeps_ringOk {s t : State} (hp : s.pst = .running) (h : s.RingOk) (hr : s.relayNext = .ok t) :
    t.RingOk := by
  obtain ⟨hrun, -, -, hres⟩ := h
  obtain ⟨hoq, hf, hh⟩ := hrun hp
  have hstates : t.stages.map Engine.st = s.stages.map Engine.st := State.relayNext_map (fun _ _ _ => rfl) hr
  have hframe := State.relayNext_frame hr
  have hp' : t.pst = .running := by rw [hframe]; exact hp
  have hres' : t.result = none := by rw [hframe]; exact hres (by simp [hp])
  have hf' : ∀ e ∈ t.stages, e.st ≠ .faulted := by
    rw [← List.forall_mem_map (P := fun st => st ≠ ExecState.faulted), hstates, List.forall_mem_map]
    exact hf
  have hh' : ∀ e ∈ t.stages.getLast?, e.st ≠ .halted := by
    have hlast : t.stages.getLast?.map Engine.st = s.stages.getLast?.map Engine.st := by
      rw [← List.getLast?_map, hstates, List.getLast?_map]
    rw [← Option.forall_mem_map (p := fun st => st ≠ ExecState.halted), hlast, Option.forall_mem_map]
    exact hh
  exact ⟨fun _ => ⟨State.relayNext_othersDrained hoq hr, hf', hh'⟩, by simp [hp'], by simp [hp'], fun _ => hres'⟩

/-- The end of a round leaves a run whose registers say why it ended, or one in which no stage has ended it. -/
theorem State.endRound_keeps_ringOk {s t : State} (hp : s.pst = .running) (h : s.InRound) (hr : s.endRound = .ok t) :
    t.RingOk := by
  obtain ⟨hf, rfl⟩ | ⟨hh, ha, rfl⟩ | ⟨hf, hh, hrelay⟩ := State.endRound_ok hr
  · refine ⟨by simp, by simp, fun _ => ⟨hf, rfl, rfl, rfl⟩, fun _ => h.noResult⟩
  · refine ⟨by simp, fun _ => ⟨ha, hh, rfl⟩, by simp, by simp⟩
  · exact State.relayNext_keeps_ringOk hp ((State.ringOk_of_running hp).2 ⟨h, hf, hh⟩) hrelay

theorem step_keeps_ringOk {s t : State} (h : s.RingOk) (hst : step s = .next t) : t.RingOk := by
  obtain ⟨-, rfl⟩ | ⟨hp, he⟩ | ⟨hp, u, he, hend⟩ := step_cases hst
  · exact h
  · obtain ⟨-, -, -, hres⟩ := h
    rw [executeStep_next he]
    exact ⟨by simp [hp], by simp [hp], by simp [hp], hres⟩
  · have hpu : u.pst = .running := by rw [executeStep_next he]; exact hp
    have hround : u.InRound := executeStep_keeps_inRound ((State.ringOk_of_running hp).1 h).1 he
    obtain ⟨hrunning, rfl⟩ | ⟨-, hr⟩ := hend
    · exact (State.ringOk_of_running hpu).2 ⟨hround, by simp [hrunning], by simp [hrunning]⟩
    · exact State.endRound_keeps_ringOk hpu hround hr

theorem step_keeps_inv {s t : State} (h : s.Inv) (hst : step s = .next t) : t.Inv :=
  ⟨step_keeps_enginesOk h.1 hst, step_keeps_ringOk h.2 hst⟩

/-! ### Runs -/

theorem core_run_succ {s t : State} (h : step s = .next t) (k : Nat) :
    Host.Core.run Sys2Proof.core (k + 1) s = Host.Core.run Sys2Proof.core k t := by
  have hstep : Sys2Proof.core.step s = .next t := h
  simp only [Host.Core.run, hstep]

theorem State.endRound_unbounded {s : State} (hcfg : s.cfg.iqDepth = none) : ∃ t, s.endRound = .ok t := by
  obtain ⟨t, ht⟩ := State.relayNext_unbounded hcfg
  unfold State.endRound
  split
  · exact ⟨_, rfl⟩
  · split
    · exact ⟨_, rfl⟩
    · exact ⟨t, ht⟩
  · exact ⟨t, ht⟩
  · exact ⟨t, ht⟩

/-- Only a relay can be turned away, and none is while the `IQ` is unbounded. -/
theorem step_unbounded_is_next {s : State} (hcfg : s.cfg.iqDepth = none) : ∃ t, step s = .next t := by
  obtain ⟨e, he⟩ := executeStep_is_next s
  cases hp : s.pst with
  | idle => exact ⟨_, (step_of_idle hp).trans he⟩
  | done => exact ⟨_, step_of_done hp⟩
  | aborted => exact ⟨_, step_of_aborted hp⟩
  | running =>
    rw [step_of_running hp he]
    by_cases hst : (s.withEngine e).eng.st = .running
    · exact ⟨_, State.afterStep_of_running hst⟩
    · obtain ⟨t, ht⟩ := State.endRound_unbounded (s := s.withEngine e) hcfg
      exact ⟨t, State.afterStep_of_endRound hst ht⟩

/-- What every step of `execute()` keeps, the whole call keeps: by induction on its steps. -/
theorem execute_invariant {P : State → Prop} (hP : ∀ s t, P s → executeStep s = .next t → P t) {fuel : Nat}
    {s t : State} (h : execute fuel s = some (.next t)) (hs : P s) : P t := by
  induction fuel generalizing s with
  | zero =>
    by_cases hex : Executes s
    · simp [execute_zero hex] at h
    · rwa [eq_of_execute_of_not_executes hex h]
  | succ k ih =>
    by_cases hex : Executes s
    · obtain ⟨e, he⟩ := executeStep_is_next s
      rw [execute_succ hex he] at h
      split at h
      case isTrue => exact ih h (hP _ _ hs he)
      case isFalse => cases h; exact hP _ _ hs he
    · rwa [eq_of_execute_of_not_executes hex h]

/-- What every step keeps, a run of the ring keeps. -/
theorem runRing_invariant {P : State → Prop} (hP : ∀ s t, P s → step s = .next t → P t) {fuel : Nat} {s t : State}
    (h : runRing fuel s = some (.next t)) (hs : P s) : P t := by
  induction fuel generalizing s with
  | zero => simp [runRing] at h
  | succ k ih =>
    cases hst : step s with
    | next u =>
      rw [runRing_succ hst] at h
      split at h
      case isTrue => exact ih h (hP _ _ hs hst)
      case isFalse => cases h; exact hP _ _ hs hst
    | fault r => simp [runRing, hst] at h
    | refused r => simp [runRing, hst] at h

/-! ### The host's operations -/

theorem Engine.load_is_ok {cfg : Config} {image : List Word} {e : Engine} (h : Engine.load cfg image = .ok e) :
    e.Ok cfg := by
  have hfits : fits cfg.memWords image.length = true := by
    by_contra hlong
    simp [Engine.load, hlong] at h
  rw [Engine.load_ok h]
  exact ⟨Memory.ofImage_wf image, Nat.zero_le _, hfits, fits_zero _, fits_zero _, by simp [Engine.reset],
    faultInfoOk_none cfg⟩

theorem Engine.write_keeps_ok {cfg : Config} {v : Word} {e e' : Engine} (h : e.Ok cfg) (hw : e.write cfg v = .ok e') :
    e'.Ok cfg := by
  obtain ⟨hroom, rfl⟩ := Engine.write_ok hw
  exact Engine.withIq_keeps_ok h (fits_append_of_not_full hroom v)

theorem Engine.read_keeps_ok {cfg : Config} {e : Engine} (h : e.Ok cfg) : e.read.2.Ok cfg := by
  cases hoq : e.oq with
  | nil => rwa [Engine.read_of_oq_nil hoq]
  | cons v q =>
    rw [Engine.read_of_oq_cons hoq]
    obtain ⟨hmem, hip, hlen, hiq, hfits, hfc, hinfo⟩ := h
    exact ⟨hmem, hip, hlen, hiq, fits_of_le (by simp [hoq]) hfits, hfc, hinfo⟩

theorem Engine.poke_ok {a : Nat} {v : Word} {e e' : Engine} (h : e.poke a v = .ok e') :
    ∃ m, e.mem.write a v = some m ∧ e' = { e with mem := m } := by
  unfold Engine.poke at h
  cases hw : e.mem.write a v with
  | none => simp [hw] at h
  | some m => simp only [hw, Except.ok.injEq] at h; exact ⟨m, rfl, h.symm⟩

theorem Engine.poke_keeps_ok {cfg : Config} {a : Nat} {v : Word} {e e' : Engine} (h : e.Ok cfg)
    (hp : e.poke a v = .ok e') : e'.Ok cfg := by
  obtain ⟨m, hw, rfl⟩ := Engine.poke_ok hp
  obtain ⟨hmem, hip, hlen, hiq, hoq, hfc, hinfo⟩ := h
  have hm := Memory.write_len hw
  exact ⟨Memory.write_wf hw hmem, by simpa [hm] using hip, by simpa [hm] using hlen, hiq, hoq, hfc, hinfo⟩

/-! ### Set-up -/

/-- A stage that `Setup` has made: in order, not yet run and with nothing output. -/
structure Engine.Fresh (cfg : Config) (e : Engine) : Prop where
  ok : e.Ok cfg
  running : e.st = .running
  oqEmpty : e.oq = []

theorem Engine.write_keeps_fresh {cfg : Config} {v : Word} {e e' : Engine} (h : e.Fresh cfg)
    (hw : e.write cfg v = .ok e') : e'.Fresh cfg := by
  obtain ⟨hok, hst, hoq⟩ := h
  have hok' := Engine.write_keeps_ok hok hw
  obtain ⟨-, rfl⟩ := Engine.write_ok hw
  exact ⟨hok', hst, hoq⟩

theorem loadStage_fresh {cfg : Config} {image : List Word} {p : Word} {e : Engine}
    (h : loadStage cfg image p = .ok e) : e.Fresh cfg := by
  unfold loadStage at h
  cases hl : Engine.load cfg image with
  | error r => simp [hl] at h
  | ok e₀ =>
    simp only [hl] at h
    refine Engine.write_keeps_fresh ⟨Engine.load_is_ok hl, ?_, ?_⟩ h
    · rw [Engine.load_ok hl]; rfl
    · rw [Engine.load_ok hl]; rfl

theorem loadStages_fresh {cfg : Config} {image ps : List Word} {es : List Engine}
    (h : loadStages cfg image ps = .ok es) : ∀ e ∈ es, e.Fresh cfg := by
  induction ps generalizing es with
  | nil => simp only [loadStages, Except.ok.injEq] at h; subst h; simp
  | cons p ps ih =>
    simp only [loadStages] at h
    cases hp : loadStage cfg image p with
    | error r => simp [hp] at h
    | ok e =>
      cases hps : loadStages cfg image ps with
      | error r => simp [hp, hps] at h
      | ok rest =>
        simp only [hp, hps, Except.ok.injEq] at h
        subst h
        exact List.forall_mem_cons.2 ⟨loadStage_fresh hp, ih hps⟩

/-- A run starts at its first stage, every stage of it fresh. -/
theorem setup_ok {cfg : Config} {image phases : List Word} {signal : Word} {s : State}
    (h : setup cfg image phases signal = .ok s) :
    s.cfg = cfg ∧ s.pst = .running ∧ s.result = none ∧ s.before = [] ∧ s.eng.Fresh cfg ∧ ∀ e ∈ s.after, e.Fresh cfg := by
  unfold setup at h
  cases hl : loadStages cfg image phases with
  | error r => simp [hl] at h
  | ok es =>
    have hfresh := loadStages_fresh hl
    cases es with
    | nil => simp [hl] at h
    | cons e es =>
      rw [List.forall_mem_cons] at hfresh
      cases hw : e.write cfg signal with
      | error r => simp [hl, hw] at h
      | ok e₀ =>
        simp only [hl, hw, Except.ok.injEq] at h
        subst h
        exact ⟨rfl, rfl, rfl, rfl, Engine.write_keeps_fresh hfresh.1 hw, hfresh.2⟩

theorem setup_meets_inv {cfg : Config} {image phases : List Word} {signal : Word} {s : State}
    (h : setup cfg image phases signal = .ok s) : s.Inv := by
  obtain ⟨rfl, hp, hres, hbefore, heng, hafter⟩ := setup_ok h
  constructor
  · rw [State.enginesOk_iff, hbefore]
    exact ⟨by simp, heng.ok, fun e he => (hafter e he).ok⟩
  · refine (State.ringOk_of_running hp).2 ⟨⟨?_, ?_, fun e he => ?_, hres⟩, ?_, ?_⟩
    · simpa [hbefore] using fun e he => (hafter e he).oqEmpty
    · rw [hbefore, List.nil_append]
      intro e he
      simp [(hafter e he).running]
    · simp [(hafter e (List.mem_of_getLast? he)).running]
    · simp [heng.running]
    · simp [heng.running]

/-! ### Requests -/

theorem State.update_keeps_enginesOk {s : State} {r : Except Refusal Engine} (h : s.EnginesOk)
    (hr : ∀ e, r = .ok e → e.Ok s.cfg) : (s.update r).2.EnginesOk := by
  cases r with
  | ok e => exact State.withEngine_keeps_enginesOk h (hr e rfl)
  | error r => exact h

theorem State.eq_of_update {s t : State} {o : Except Refusal Engine} {r : HostResponse}
    (h : some (s.update o) = some (r, t)) : t = (s.update o).2 := by
  rw [Option.some.inj h]

theorem executeAnswer_eq {s t : State} {r : HostResponse} {o : Host.Outcome State Fault Refusal}
    (h : executeAnswer s o = (r, t)) : o = .next t ∨ t = s := by
  cases o with
  | next u => cases h; exact .inl rfl
  | fault f => cases h; exact .inr rfl
  | refused f => cases h; exact .inr rfl

theorem pipelineAnswer_eq {s t : State} {r : HostResponse} {o : Host.Outcome State Fault Refusal}
    (h : pipelineAnswer s o = (r, t)) : o = .next t ∨ t = s := by
  cases o with
  | next u =>
    simp only [pipelineAnswer] at h
    split at h <;> (cases h; exact .inl rfl)
  | fault f => cases h; exact .inr rfl
  | refused f => cases h; exact .inr rfl

theorem serve_keeps_enginesOk {fuel : Nat} {q : HostRequest} {s t : State} {r : HostResponse} (h : s.EnginesOk)
    (hq : serve fuel q s = some (r, t)) : t.EnginesOk := by
  have heng := h _ s.eng_mem_stages
  have update : ∀ {o : Except Refusal Engine}, some (s.update o) = some (r, t) → (∀ e, o = .ok e → e.Ok s.cfg) →
      t.EnginesOk := by
    intro o ho hok
    rw [State.eq_of_update ho]
    exact State.update_keeps_enginesOk h hok
  cases q with
  | load image => exact update hq fun e => Engine.load_is_ok
  | write v => exact update hq fun e => Engine.write_keeps_ok heng
  | poke a v => exact update hq fun e => Engine.poke_keeps_ok heng
  | read => cases hq; exact State.withEngine_keeps_enginesOk h (Engine.read_keeps_ok heng)
  | peek a =>
    simp only [serve] at hq
    split at hq <;> (cases hq; exact h)
  | clone =>
    cases hq
    obtain ⟨hbefore, -, hafter⟩ := s.enginesOk_iff.1 h
    exact (State.enginesOk_iff _).2 ⟨hbefore, heng, List.forall_mem_cons.2 ⟨heng, hafter⟩⟩
  | select j =>
    simp only [serve] at hq
    split at hq
    · rename_i u hu
      cases hq
      obtain ⟨hstages, -, -, hcfg⟩ := State.select_ok hu
      rwa [State.EnginesOk, hstages, hcfg]
    · cases hq; exact h
  | execute =>
    obtain ⟨o, ho, hanswer⟩ := Option.map_eq_some_iff.1 hq
    obtain rfl | rfl := executeAnswer_eq hanswer
    · exact execute_invariant (fun _ _ => executeStep_keeps_enginesOk) ho h
    · exact h
  | pipeline image phases signal =>
    simp only [serve] at hq
    split at hq
    · rename_i u hu
      obtain ⟨o, ho, hanswer⟩ := Option.map_eq_some_iff.1 hq
      obtain rfl | rfl := pipelineAnswer_eq hanswer
      · exact runRing_invariant (fun _ _ => step_keeps_enginesOk) ho (setup_meets_inv hu).1
      · exact h
    · cases hq; exact h

end Sys2Proof.Machine

open Sys2Proof Sys2Proof.Machine

/-- Settles O33: the Engines by `step_keeps_enginesOk`, the Orchestrator's registers by `step_keeps_ringOk`. -/
theorem stepKeepsInvariant : Obligations.StepKeepsInvariant :=
  fun _ _ => step_keeps_inv

/-- Settles O38, by induction on the number of steps: each is answered, and keeps the invariant and the parameters. -/
theorem unboundedRunsAreNeverRefused : Obligations.UnboundedRunsAreNeverRefused := by
  intro k
  induction k with
  | zero => exact fun s h _ => ⟨s, rfl, h⟩
  | succ k ih =>
    intro s h hcfg
    obtain ⟨t, ht⟩ := step_unbounded_is_next hcfg
    obtain ⟨u, hu, hinv⟩ := ih t (step_keeps_inv h ht) (by rw [step_cfg ht]; exact hcfg)
    exact ⟨u, by rw [core_run_succ ht]; exact hu, hinv⟩

/-- Settles O32, by evaluating the invariant at the one state it is about. -/
theorem resetMeetsInvariant : Obligations.ResetMeetsInvariant := by
  unfold Obligations.ResetMeetsInvariant
  decide

/-- Settles O34: every stage is fresh, so no stage gives a reason to end the run. -/
theorem setupMeetsInvariant : Obligations.SetupMeetsInvariant :=
  fun _ _ _ _ _ => setup_meets_inv

/-- Settles O35: a request acts on one Engine, moves Engines, or runs steps that keep them in order. -/
theorem requestsKeepEnginesInOrder : Obligations.RequestsKeepEnginesInOrder := by
  intro fuel q s t r h hq
  unfold request at hq
  split at hq
  case isTrue => cases hq; exact h
  case isFalse => exact serve_keeps_enginesOk h hq

/-- Settles O36: all three are read off `State.sizes`. -/
theorem lengthsAndParametersNeverChange : Obligations.LengthsAndParametersNeverChange := by
  intro s t h
  obtain ⟨hlens, hcfg⟩ := Prod.mk.inj (step_sizes h)
  refine ⟨hlens, ?_, hcfg⟩
  simpa [State.stages_length] using congrArg List.length hlens

/-- Settles O37: the invariant bounds `IP` by `L` and `L` by `MEM_WORDS`. -/
theorem addressesFitEveryWidth : Obligations.AddressesFitEveryWidth := by
  intro s t c w hinv hc hw hst e he
  obtain ⟨-, hip, hlen, -⟩ := (step_keeps_inv hinv hst).1 e he
  rw [step_cfg hst, hc] at hlen
  have hlen : e.mem.len ≤ c := of_decide_eq_true hlen
  omega

end

section
/-! The statements on fetch and decode as steps (30_encoding.md section 5, 40_execution-cycle.md section 2) and on an
`execute()` call as a whole (section 1 there). A step either takes the fault of its fetch or runs the fetched instruction;
the first word of the window says which. -/

namespace Sys2Proof.Machine

/-! ### A step by its fetch -/

theorem executeStep_of_fetch_ok {s : State} {i : Instr} (hs : Executes s) (h : s.eng.fetch = .ok i) :
    executeStep s = exec i (Started s) := by
  rw [executeStep_of_executes hs, runInstr, State.withEngine_eng, Engine.begin_fetch, h]
  rfl

theorem executeStep_of_fetch_error {s : State} {f : FaultInfo} (hs : Executes s) (h : s.eng.fetch = .error f) :
    executeStep s = .next (FaultOf s f) := by
  rw [executeStep_of_executes hs, runInstr, State.withEngine_eng, Engine.begin_fetch, h]
  rfl

theorem executeStep_of_not_executes {s : State} (hs : ¬ Executes s) : executeStep s = .next s := by
  obtain ⟨hrunning, hblocked⟩ := not_or.1 hs
  cases h : s.eng.st with
  | running => exact absurd h hrunning
  | blocked => exact absurd h hblocked
  | halted => simp only [executeStep, h]
  | faulted => simp only [executeStep, h]

/-! ### The window -/

theorem Engine.window_head? (e : Engine) : e.window.head? = e.mem.read e.ip := by
  rw [List.head?_eq_getElem?]
  exact e.window_getElem? (by decide)

theorem Engine.window_eq_nil {e : Engine} (h : e.mem.read e.ip = none) : e.window = [] :=
  List.head?_eq_none_iff.1 (e.window_head?.trans h)

theorem Engine.window_eq_cons {e : Engine} {ir : Word} (h : e.mem.read e.ip = some ir) :
    ∃ ps, e.window = ir :: ps ∧ ps.length = min 3 (e.mem.len - (e.ip + 1)) := by
  obtain ⟨ps, hps⟩ := List.head?_eq_some_iff.1 (e.window_head?.trans h)
  have hlen := e.window_length
  rw [hps, List.length_cons] at hlen
  exact ⟨ps, hps, by omega⟩

/-! ### The faults of a fetch -/

theorem Engine.fetch_of_window_nil {e : Engine} (h : e.window = []) :
    e.fetch = .error ⟨.outOfBounds, BitVec.ofNat 64 e.ip⟩ := by
  simp only [Engine.fetch, h, decode, outOfBoundsAt, BitVec.ofInt_natCast]

theorem Engine.fetch_of_unknown {e : Engine} {ir : Word} (h : e.mem.read e.ip = some ir) (hop : decodeOpcode ir = none) :
    e.fetch = .error ⟨.unknownOpcode, ir⟩ := by
  obtain ⟨ps, hps, -⟩ := Engine.window_eq_cons h
  simp only [Engine.fetch, hps, decode, hop]

theorem decodeParams_of_short {ir : Word} {ps : List Word} {op : Opcode} (h : ps.length < op.numParams) :
    decodeParams ir ps op = .error (.missingParam (ps.length + 1)) := by
  cases hd : decodeParams ir ps op with
  | ok i =>
    obtain ⟨-, -, hle, -⟩ := decodeParams_ok hd
    omega
  | error r => rw [(decodeParams_error hd).2]

theorem Engine.fetch_of_missing {e : Engine} {ir : Word} {op : Opcode} {k : Nat} (h : e.mem.read e.ip = some ir)
    (hop : decodeOpcode ir = some op) (hk : 1 ≤ k) (hn : k ≤ op.numParams) (hend : e.ip + k = e.mem.len) :
    e.fetch = .error ⟨.outOfBounds, BitVec.ofNat 64 (e.ip + k)⟩ := by
  obtain ⟨ps, hps, hlen⟩ := Engine.window_eq_cons h
  have hn3 := op.numParams_le
  have hlast : ps.length + 1 = k := by omega
  have hshort : ps.length < op.numParams := by omega
  simp only [Engine.fetch, hps, decode_cons hop, decodeParams_of_short hshort, hlast, outOfBoundsAt, BitVec.ofInt_natCast]

/-- The opcode map has no row for 0 and none from 9 to 98, and a negative word has no opcode. -/
theorem decodeOpcode_eq_none {ir : Word}
    (h : ir.toInt < 0 ∨ ir.toInt % 100 = 0 ∨ (9 ≤ ir.toInt % 100 ∧ ir.toInt % 100 ≤ 98)) : decodeOpcode ir = none := by
  cases ho : decodeOpcode ir with
  | none => rfl
  | some op =>
    obtain ⟨hnonneg, hcode⟩ := decodeOpcode_some.1 ho
    have hrow : (1 ≤ op.code ∧ op.code ≤ 8) ∨ op.code = 99 := by cases op <;> decide
    omega

/-! ### Steps of a call -/

theorem core_run_snoc {k : Nat} {s t u : State} (h : Host.Core.run Sys2Proof.core k s = .next t) (hu : step t = .next u) :
    Host.Core.run Sys2Proof.core (k + 1) s = .next u := by
  induction k generalizing s with
  | zero =>
    cases h
    exact core_run_succ hu 0
  | succ k ih =>
    cases hs : step s with
    | next s' =>
      rw [core_run_succ hs] at h ⊢
      exact ih h
    | fault r => exact nomatch r
    | refused r =>
      have hstep : Sys2Proof.core.step s = .refused r := hs
      simp only [Host.Core.run, hstep] at h
      cases h

/-- By induction on the fuel of one of the two calls: they make the same steps, and end at the same one. -/
theorem execute_unique {j k : Nat} {s t u : State} (ht : execute j s = some (.next t)) (hu : execute k s = some (.next u)) :
    t = u := by
  by_cases hs : Executes s
  case neg => rw [eq_of_execute_of_not_executes hs ht, eq_of_execute_of_not_executes hs hu]
  case pos =>
    induction j generalizing k s with
    | zero => simp [execute_zero hs] at ht
    | succ j ih =>
      obtain ⟨e, he⟩ := executeStep_is_next s
      cases k with
      | zero => simp [execute_zero hs] at hu
      | succ k =>
        rw [execute_succ hs he] at ht hu
        split at ht
        case isTrue hrun => exact ih ht (by rwa [if_pos hrun] at hu) (.inl hrun)
        case isFalse hstop =>
          rw [if_neg hstop] at hu
          cases ht
          cases hu
          rfl

end Sys2Proof.Machine

open Sys2Proof Sys2Proof.Machine

/-- Settles O5: such a word selects no row of the opcode map, whatever follows it. -/
theorem unknownOpcodeFaults : Obligations.UnknownOpcodeFaults :=
  fun _ _ hs hread hword => executeStep_of_fetch_error hs (Engine.fetch_of_unknown hread (decodeOpcode_eq_none hword))

/-- Settles O6: the first word of the window is the word read at `IP`. -/
theorem fetchOutsideMemoryFaults : Obligations.FetchOutsideMemoryFaults := by
  refine fun s hs => ⟨fun hnone => ⟨?_, fun hok => ?_⟩, fun ir hread => (s.eng.window_head?).trans hread⟩
  · exact executeStep_of_fetch_error hs (Engine.fetch_of_window_nil (Engine.window_eq_nil hnone))
  · obtain ⟨-, hip, -⟩ := hok
    have hout := read_none_iff_range.1 hnone
    omega

/-- Settles O7: where Memory ends at parameter `k`, the window holds the `k - 1` parameters before it. -/
theorem missingParameterFaults : Obligations.MissingParameterFaults :=
  fun _ _ _ _ hs hread hop hk hn hend => executeStep_of_fetch_error hs (Engine.fetch_of_missing hread hop hk hn hend)

/-- Settles O8: a fetch answers what its window decodes to, and `step` is `executeStep` with, in a run, the end of the
round. -/
theorem stepRunsDecodedInstruction : Obligations.StepRunsDecodedInstruction := by
  intro s i hs hdec
  have hstep := executeStep_of_fetch_ok hs (Engine.fetch_ok_iff.2 hdec)
  exact ⟨hstep, fun hp => (step_of_idle hp).trans hstep, fun hp t ht => step_of_running hp (hstep.trans ht)⟩

/-- Settles O28: neither a step nor a call of `execute()` looks further than `ST`. -/
theorem stoppedEngineDoesNotFetch : Obligations.StoppedEngineDoesNotFetch := by
  intro s hstopped
  have hs : ¬ Executes s := by rcases hstopped with h | h <;> simp [Executes, h]
  have hstep := executeStep_of_not_executes hs
  exact ⟨hstep, fun hp => (step_of_idle hp).trans hstep, execute_of_not_executes hs⟩

/-- Settles O30: a step has one outcome, so two calls from one state end at the same step. -/
theorem executeResultIgnoresFuel : Obligations.ExecuteResultIgnoresFuel :=
  fun _ _ _ _ _ => execute_unique

/-- Settles O31: being reached by steps of the machine with `PST` Idle is kept by every step of a call. -/
theorem executeIsIteratedStep : Obligations.ExecuteIsIteratedStep := by
  intro fuel s t hp h
  refine (execute_invariant (P := fun u => (∃ k, Host.Core.run Sys2Proof.core k s = .next u) ∧ u.pst = .idle) ?_ h
    ⟨⟨0, rfl⟩, hp⟩).1
  rintro u v ⟨⟨k, hk⟩, hu⟩ hv
  refine ⟨⟨k + 1, core_run_snoc hk ((step_of_idle hu).trans hv)⟩, ?_⟩
  rw [executeStep_next hv]
  exact hu
end

section
/-! The statements on what each instruction does (41_arithmetic.md to 45_halt.md): its completion, its faults and its frame.
An instruction retires its `effect`, so a completion is an equation of the effect and a frame is one case for its end and
one for its fault. -/

namespace Sys2Proof.Machine

/-! ### Retiring an effect -/

theorem exec_of_effect_ok {i : Instr} {s : State} {e : Engine} (h : effect i s = .ok e) :
    exec i s = .next (s.withEngine e) := by
  rw [exec_eq_retire, h, State.retire]

theorem exec_of_effect_error {i : Instr} {s : State} {f : FaultInfo} (h : effect i s = .error f) :
    exec i s = .next (FaultOf s f) := by
  rw [exec_eq_retire, h]
  rfl

theorem exec_next {i : Instr} {s u : State} (h : exec i s = .next u) :
    (∃ e, effect i s = .ok e ∧ u = s.withEngine e) ∨ (∃ f, effect i s = .error f ∧ u = FaultOf s f) :=
  retire_next ((exec_eq_retire i s).symm.trans h)

/-- Only input can leave an Engine Blocked, and only halt can leave it Halted. -/
theorem effect_ok_st {i : Instr} {s : State} {e : Engine} (h : effect i s = .ok e) :
    e.st = s.eng.st ∨ (e.st = .blocked ∧ ∃ d, i = .input d) ∨ (e.st = .halted ∧ i = .halt) := by
  have three : ∀ {f a b d}, threeOperand f a b d s.eng = .ok e → e.st = s.eng.st := by
    intro f a b d h
    obtain ⟨x, y, t, m, -, -, -, -, rfl⟩ := threeOperand_ok h
    rfl
  have jump : ∀ {c a b}, conditionalJump c a b s.eng = .ok e → e.st = s.eng.st := by
    intro c a b h
    obtain ⟨x, t, -, -, ⟨-, -, rfl⟩ | ⟨-, rfl⟩⟩ := conditionalJump_ok h <;> rfl
  cases i with
  | add a b d => exact .inl (three h)
  | multiply a b d => exact .inl (three h)
  | lessThan a b d => exact .inl (three h)
  | equals a b d => exact .inl (three h)
  | jumpIfTrue a t => exact .inl (jump h)
  | jumpIfFalse a t => exact .inl (jump h)
  | halt => cases h; exact .inr (.inr ⟨rfl, rfl⟩)
  | input d =>
    simp only [effect] at h
    split at h
    · cases h
    · obtain ⟨-, rfl⟩ | ⟨v, q, m, -, -, rfl⟩ := Engine.inputTo_ok h
      · exact .inr (.inl ⟨rfl, d, rfl⟩)
      · exact .inl rfl
  | output a =>
    simp only [effect] at h
    split at h
    · cases h
    · obtain ⟨-, rfl⟩ := Engine.outputOf_ok h
      exact .inl rfl

theorem effect_ok_not_faulted {i : Instr} {s : State} {e : Engine} (h : effect i s = .ok e)
    (hs : s.eng.st ≠ .faulted) : e.st ≠ .faulted := by
  obtain hst | ⟨hst, -⟩ | ⟨hst, -⟩ := effect_ok_st h <;> simp [hst, hs]

/-! ### Format F3 -/

/-- Each instruction of format F3 retires `threeOperand` of one function of the ALU. -/
theorem ThreeOperandForm.effect_eq {mk : Param → Param → Param → Instr} (h : ThreeOperandForm mk) :
    ∃ f, ∀ a b d s, effect (mk a b d) s = threeOperand f a b d s.eng := by
  obtain rfl | rfl | rfl | rfl := h
  · exact ⟨aluAdd, fun _ _ _ _ => rfl⟩
  · exact ⟨aluMul, fun _ _ _ _ => rfl⟩
  · exact ⟨aluLess, fun _ _ _ _ => rfl⟩
  · exact ⟨aluEqual, fun _ _ _ _ => rfl⟩

/-- A step that replaces the Memory by one written at `t` and advances `IP` has stored one word. -/
theorem storedOne_of_write {s : State} {m : Memory} {t : Int} {v : Word} (hw : s.eng.mem.write t v = some m)
    (width : Nat) : StoredOne s (s.withEngine { s.eng with mem := m, ip := s.eng.ip + width }) t v width :=
  ⟨rfl, Memory.write_len hw, Memory.read_write_self hw, fun _ hb => Memory.read_write_other hw hb⟩

theorem exec_of_threeOperand {i : Instr} {f : Word → Word → Word} {a b d : Param} {s : State} {x y : Word} {t : Int}
    (hi : effect i s = threeOperand f a b d s.eng) (hx : SourceReads s.eng.mem a x) (hy : SourceReads s.eng.mem b y)
    (ht : DestReaches s.eng.mem d t) : ∃ u : State, exec i s = .next u ∧ StoredOne s u t (f x y) 4 := by
  obtain ⟨m, hw, he⟩ := threeOperand_of_resolved (f := f) (val_ok_iff.2 hx) (val_ok_iff.2 hy) (dst_ok_iff.2 ht)
  exact ⟨_, exec_of_effect_ok (hi.trans he), storedOne_of_write hw 4⟩

/-- `wrap64` is the spec's formula (00_scope.md R7). -/
theorem wrap64_toInt (x : Int) : (wrap64 x).toInt = wrapFormula x := by
  rw [wrap64, BitVec.toInt_ofInt, Int.bmod_def, wrapFormula]
  split <;> omega

theorem aluLess_eq (x y : Word) : aluLess x y = if x.toInt < y.toInt then 1 else 0 := by
  simp [aluLess, boolWord]

theorem aluEqual_eq (x y : Word) : aluEqual x y = if x = y then 1 else 0 := by
  simp [aluEqual, boolWord]

/-! ### input -/

theorem effect_input {d : Param} {s : State} {t : Int} (h : DestReaches s.eng.mem d t) :
    effect (.input d) s = s.eng.inputTo t := by
  simp only [effect, dst_ok_iff.2 h]

theorem Engine.inputTo_of_nil {e : Engine} (h : e.iq = []) (t : Int) : e.inputTo t = .ok { e with st := .blocked } := by
  simp only [Engine.inputTo, dequeue_eq_none_iff.2 h]

theorem Engine.inputTo_of_cons {e : Engine} {t : Int} {v : Word} {q : List Word} (hq : e.iq = v :: q)
    (ht : 0 ≤ t ∧ t < (e.mem.len : Int)) :
    ∃ m, e.mem.write t v = some m ∧ e.inputTo t = .ok { e with mem := m, ip := e.ip + 2, iq := q } := by
  obtain ⟨m, hw, hs⟩ := Engine.store_of_range (e := { e with iq := q }) v 2 ht
  exact ⟨m, hw, by simp only [Engine.inputTo, dequeue_eq_some_iff.2 hq, hs]⟩

theorem exec_input_of_cons {d : Param} {s : State} {t : Int} {v : Word} {q : List Word}
    (ht : DestReaches s.eng.mem d t) (hq : s.eng.iq = v :: q) :
    ∃ m, s.eng.mem.write t v = some m ∧
      exec (.input d) s = .next (s.withEngine { s.eng with mem := m, ip := s.eng.ip + 2, iq := q }) := by
  have ⟨_, _, hrange⟩ := ht
  obtain ⟨m, hw, he⟩ := Engine.inputTo_of_cons hq hrange
  exact ⟨m, hw, exec_of_effect_ok ((effect_input ht).trans he)⟩

/-! ### output -/

theorem effect_output {a : Param} {s : State} {v : Word} (h : SourceReads s.eng.mem a v) :
    effect (.output a) s = s.eng.outputOf s.cfg.oqDepth v := by
  simp only [effect, val_ok_iff.2 h]

theorem queueFull_eq_false_iff {depth : Option Nat} {q : List Word} :
    queueFull depth q = false ↔ ∀ n, depth = some n → q.length < n := by
  cases depth <;> simp [queueFull]

theorem queueFull_of_length_eq {depth : Option Nat} {q : List Word} {n : Nat} (hn : depth = some n)
    (hq : q.length = n) : queueFull depth q = true := by
  simp [queueFull, hn, hq]

/-! ### Jumps -/

/-- Each jump retires `conditionalJump` of its test of a word against zero. -/
theorem JumpForm.effect_eq {mk : Param → Param → Instr} (h : JumpForm mk) :
    ∃ c, ∀ a g s, effect (mk a g) s = conditionalJump c a g s.eng := by
  obtain rfl | rfl := h
  · exact ⟨wordIsTrue, fun _ _ _ => rfl⟩
  · exact ⟨wordIsFalse, fun _ _ _ => rfl⟩

theorem conditionalJump_taken {c : Word → Bool} {a g : Param} {e : Engine} {x t : Word} (hx : SourceReads e.mem a x)
    (ht : SourceReads e.mem g t) (hc : c x = true) : conditionalJump c a g e = e.jump t := by
  rw [conditionalJump_of_resolved (val_ok_iff.2 hx) (val_ok_iff.2 ht), if_pos hc]

theorem conditionalJump_not_taken {c : Word → Bool} {a g : Param} {e : Engine} {x t : Word} (hx : SourceReads e.mem a x)
    (ht : SourceReads e.mem g t) (hc : c x = false) : conditionalJump c a g e = .ok { e with ip := e.ip + 3 } := by
  rw [conditionalJump_of_resolved (val_ok_iff.2 hx) (val_ok_iff.2 ht), if_neg (by simp [hc])]

theorem conditionalJump_of_resolve_error {c : Word → Bool} {a g : Param} {e : Engine} {f : FaultInfo}
    (h : resolveTwo e.mem a g = .error f) : conditionalJump c a g e = .error f := by
  simp only [conditionalJump, h]

theorem exec_of_bad_target {i : Instr} {c : Word → Bool} {a g : Param} {s : State} {x t : Word}
    (hi : effect i s = conditionalJump c a g s.eng) (hx : SourceReads s.eng.mem a x) (ht : SourceReads s.eng.mem g t)
    (hc : c x = true) (hr : ¬ (0 ≤ t.toInt ∧ t.toInt ≤ s.eng.mem.len)) :
    exec i s = .next (FaultOf s ⟨.outOfBounds, t⟩) :=
  exec_of_effect_error (hi.trans ((conditionalJump_taken hx ht hc).trans (Engine.jump_error_iff.2 ⟨hr, rfl⟩)))

/-- A jump whose operands resolve ends with `IP` at the target, if it is taken and the target lies in `0 .. L`, or at the
next instruction. -/
theorem exec_of_conditionalJump {i : Instr} {c : Word → Bool} {a g : Param} {s : State} {x t : Word}
    (hi : effect i s = conditionalJump c a g s.eng) (hx : SourceReads s.eng.mem a x) (ht : SourceReads s.eng.mem g t)
    (hr : c x = true → 0 ≤ t.toInt ∧ t.toInt ≤ s.eng.mem.len) :
    exec i s = .next { s with eng := { s.eng with ip := if c x = true then t.toInt.toNat else s.eng.ip + 3 } } := by
  cases hc : c x with
  | true =>
    exact exec_of_effect_ok (hi.trans ((conditionalJump_taken hx ht hc).trans (Engine.jump_ok_iff.2 ⟨hr hc, rfl⟩)))
  | false => exact exec_of_effect_ok (hi.trans (conditionalJump_not_taken hx ht hc))

/-! ### Frames -/

/-- The Memory after an instruction whose destination resolves to `D`: what it was, or written at that address alone. -/
def MemoryFrame (m m' : Memory) (D : Except FaultInfo Int) : Prop :=
  m' = m ∨ ∃ t v, D = .ok t ∧ m.write t v = some m'

theorem MemoryFrame.read_other {m m' : Memory} {D : Except FaultInfo Int} (h : MemoryFrame m m' D) :
    ∀ t, D = .ok t → ∀ c : Int, c ≠ t → m'.read c = m.read c := by
  rintro t rfl c hc
  obtain rfl | ⟨t', v, ht, hw⟩ := h
  · rfl
  · cases ht
    exact Memory.read_write_other hw hc

theorem MemoryFrame.eq_of_no_address {m m' : Memory} {D : Except FaultInfo Int} (h : MemoryFrame m m' D)
    (hD : ∀ t, D ≠ .ok t) : m' = m := by
  obtain rfl | ⟨t, v, ht, -⟩ := h
  · rfl
  · exact absurd ht (hD t)

theorem MemoryFrame.len {m m' : Memory} {D : Except FaultInfo Int} (h : MemoryFrame m m' D) : m'.len = m.len := by
  obtain rfl | ⟨t, v, -, hw⟩ := h
  · rfl
  · exact Memory.write_len hw

theorem exec_threeOperand_frame {i : Instr} {f : Word → Word → Word} {a b d : Param} {s u : State}
    (hi : effect i s = threeOperand f a b d s.eng) (h : exec i s = .next u) :
    MemoryFrame s.eng.mem u.eng.mem (dst s.eng.mem 3 d) ∧ u.eng.iq = s.eng.iq ∧ u.eng.oq = s.eng.oq := by
  obtain ⟨e, he, rfl⟩ | ⟨g, -, rfl⟩ := exec_next h
  · obtain ⟨x, y, t, m, -, -, ht, hw, rfl⟩ := threeOperand_ok (hi.symm.trans he)
    exact ⟨.inr ⟨t, _, ht, hw⟩, rfl, rfl⟩
  · exact ⟨.inl rfl, rfl, rfl⟩

theorem exec_input_frame {d : Param} {s u : State} (h : exec (.input d) s = .next u) :
    MemoryFrame s.eng.mem u.eng.mem (dst s.eng.mem 1 d) ∧ (u.eng.iq = s.eng.iq ∨ u.eng.iq = s.eng.iq.tail) ∧
      u.eng.oq = s.eng.oq := by
  obtain ⟨e, he, rfl⟩ | ⟨g, -, rfl⟩ := exec_next h
  · simp only [effect] at he
    split at he
    · cases he
    · rename_i t ht
      obtain ⟨-, rfl⟩ | ⟨v, q, m, hq, hw, rfl⟩ := Engine.inputTo_ok he
      · exact ⟨.inl rfl, .inl rfl, rfl⟩
      · exact ⟨.inr ⟨t, v, ht, hw⟩, .inr (by rw [hq]; rfl), rfl⟩
  · exact ⟨.inl rfl, .inl rfl, rfl⟩

theorem exec_jump_frame {i : Instr} {c : Word → Bool} {a g : Param} {s u : State}
    (hi : effect i s = conditionalJump c a g s.eng) (h : exec i s = .next u) :
    u.eng.mem = s.eng.mem ∧ u.eng.iq = s.eng.iq ∧ u.eng.oq = s.eng.oq := by
  obtain ⟨e, he, rfl⟩ | ⟨f, -, rfl⟩ := exec_next h
  · obtain ⟨x, t, -, -, ⟨-, -, rfl⟩ | ⟨-, rfl⟩⟩ := conditionalJump_ok (hi.symm.trans he) <;> exact ⟨rfl, rfl, rfl⟩
  · exact ⟨rfl, rfl, rfl⟩

theorem exec_output_frame {a : Param} {s u : State} (h : exec (.output a) s = .next u) :
    u.eng.mem = s.eng.mem ∧ u.eng.iq = s.eng.iq ∧ (u.eng.oq = s.eng.oq ∨ ∃ v, u.eng.oq = s.eng.oq ++ [v]) := by
  obtain ⟨e, he, rfl⟩ | ⟨f, -, rfl⟩ := exec_next h
  · simp only [effect] at he
    split at he
    · cases he
    · obtain ⟨-, rfl⟩ := Engine.outputOf_ok he
      exact ⟨rfl, rfl, .inr ⟨_, rfl⟩⟩
  · exact ⟨rfl, rfl, .inl rfl⟩

/-! ### A stored word as the next instruction -/

/-- Whatever has put `v` at the new `IP`, the next fetch finds it. -/
theorem fetchesNext_of_read {s u : State} {v : Word} (hread : u.eng.mem.read u.eng.ip = some v)
    (hst : u.eng.st = s.eng.st) : FetchesNext s u v := by
  refine ⟨u.eng.window_head?.trans hread, fun hop hs => ?_⟩
  have hu : Executes u := by rwa [Executes, hst]
  exact executeStep_of_fetch_error hu (Engine.fetch_of_unknown hread hop)

end Sys2Proof.Machine

open Sys2Proof Sys2Proof.Machine

/-- Settles O9: `aluAdd` wraps the exact sum by the spec's formula. -/
theorem addStoresTheSum : Obligations.AddStoresTheSum := by
  intro a b d s x y t hx hy ht
  obtain ⟨u, hu, hstored⟩ := exec_of_threeOperand (i := .add a b d) rfl hx hy ht
  exact ⟨u, _, hu, wrap64_toInt _, hstored⟩

/-- Settles O10: `aluMul` wraps the exact product by the spec's formula. -/
theorem multiplyStoresTheProduct : Obligations.MultiplyStoresTheProduct := by
  intro a b d s x y t hx hy ht
  obtain ⟨u, hu, hstored⟩ := exec_of_threeOperand (i := .multiply a b d) rfl hx hy ht
  exact ⟨u, _, hu, wrap64_toInt _, hstored⟩

/-- Settles O11: what is stored is `aluLess` of the operands. -/
theorem lessThanStoresTheOrder : Obligations.LessThanStoresTheOrder := by
  intro a b d s x y t hx hy ht
  rw [← aluLess_eq]
  exact exec_of_threeOperand rfl hx hy ht

/-- Settles O12: what is stored is `aluEqual` of the operands. -/
theorem equalsStoresTheEquality : Obligations.EqualsStoresTheEquality := by
  intro a b d s x y t hx hy ht
  rw [← aluEqual_eq]
  exact exec_of_threeOperand rfl hx hy ht

/-- Settles O13: an instruction of format F3 faults where its resolution does, and that takes its parameters in order. -/
theorem threeOperandFaultOrder : Obligations.ThreeOperandFaultOrder := by
  intro mk a b d s f hmk
  obtain ⟨alu, halu⟩ := hmk.effect_eq
  have faults : resolveThree s.eng.mem a b d = .error f → exec (mk a b d) s = .next (FaultOf s f) :=
    fun hr => exec_of_effect_error ((halu a b d s).trans (threeOperand_error_iff.2 hr))
  refine ⟨fun ha => faults ?_, fun x hx hb => faults ?_, fun x y hx hy hd => faults ?_⟩
  · exact resolveThree_error_iff.2 (.inl (val_error_iff.2 ha))
  · exact resolveThree_error_iff.2 (.inr (.inl ⟨x, val_ok_iff.2 hx, val_error_iff.2 hb⟩))
  · exact resolveThree_error_iff.2 (.inr (.inr ⟨x, y, val_ok_iff.2 hx, val_ok_iff.2 hy, dst_error_iff.2 hd⟩))

/-- Settles O14: the head of the queue is written at the destination's address. -/
theorem inputTakesTheHead : Obligations.InputTakesTheHead := by
  intro d s t v q ht hq
  obtain ⟨m, hw, he⟩ := exec_input_of_cons ht hq
  exact ⟨_, he, rfl, Memory.write_len hw, Memory.read_write_self hw, fun b hb => Memory.read_write_other hw hb⟩

/-- Settles O15: a Blocked Engine that fetches the input again starts it from Running and is Blocked by it as before. -/
theorem inputBlocksOnEmptyQueue : Obligations.InputBlocksOnEmptyQueue := by
  intro d s t ht hq
  have blocks : ∀ s : State, DestReaches s.eng.mem d t → s.eng.iq = [] →
      exec (.input d) s = .next { s with eng := { s.eng with st := .blocked } } :=
    fun s ht hq => exec_of_effect_ok ((effect_input ht).trans (Engine.inputTo_of_nil hq t))
  refine ⟨blocks s ht hq, fun hfetch hst => ?_⟩
  rw [executeStep_of_fetch_ok (.inr hst) hfetch, blocks (Started s) ht hq, ← hst]

/-- Settles O16: the destination is resolved before the queue is looked at. -/
theorem inputFaultsBeforeBlocking : Obligations.InputFaultsBeforeBlocking := by
  intro d s f hd
  exact exec_of_effect_error (by simp only [effect, dst_error_iff.2 hd])

/-- Settles O17: the only check between the operand and the append is that `OQ` is not full. -/
theorem outputAppends : Obligations.OutputAppends := by
  intro a s v hv hroom
  refine exec_of_effect_ok ((effect_output hv).trans ?_)
  simp [Engine.outputOf, queueFull_eq_false_iff.2 hroom, enqueue, Engine.advance]

/-- Settles O18: the source is resolved first, and a queue of its depth's length is full. -/
theorem outputFaults : Obligations.OutputFaults := by
  refine fun a s => ⟨fun f ha => exec_of_effect_error ?_, fun v n hv hn hfull => exec_of_effect_error ?_⟩
  · simp only [effect, val_error_iff.2 ha]
  · rw [effect_output hv, Engine.outputOf, if_pos (queueFull_of_length_eq hn hfull)]

/-- Settles O19: `exec_of_conditionalJump` with the test `wordIsTrue`. -/
theorem jumpIfTrueMovesIp : Obligations.JumpIfTrueMovesIp := by
  intro a g s x t hx ht hr
  rw [exec_of_conditionalJump (i := .jumpIfTrue a g) (c := wordIsTrue) rfl hx ht (by simpa [wordIsTrue] using hr)]
  simp [wordIsTrue]

/-- Settles O20: `exec_of_conditionalJump` with the test `wordIsFalse`. -/
theorem jumpIfFalseMovesIp : Obligations.JumpIfFalseMovesIp := by
  intro a g s x t hx ht hr
  rw [exec_of_conditionalJump (i := .jumpIfFalse a g) (c := wordIsFalse) rfl hx ht (by simpa [wordIsFalse] using hr)]
  simp [wordIsFalse]

/-- Settles O21: a jump resolves both operands before it looks at its condition, and checks a target only if it is
taken. -/
theorem jumpFaults : Obligations.JumpFaults := by
  intro mk a g s hmk
  obtain ⟨c, heffect⟩ := hmk.effect_eq
  have faults : ∀ {f}, resolveTwo s.eng.mem a g = .error f → exec (mk a g) s = .next (FaultOf s f) :=
    fun hf => exec_of_effect_error ((heffect a g s).trans (conditionalJump_of_resolve_error hf))
  refine ⟨fun f ha => faults ?_, fun x f hx hg => faults ?_, fun x t hx ht hc hr => ?_⟩
  · exact resolveTwo_error_iff.2 (.inl (val_error_iff.2 ha))
  · exact resolveTwo_error_iff.2 (.inr ⟨x, val_ok_iff.2 hx, val_error_iff.2 hg⟩)
  · obtain ⟨rfl, hne⟩ | ⟨rfl, hzero⟩ := hc
    · exact exec_of_bad_target (c := wordIsTrue) rfl hx ht (decide_eq_true hne) hr
    · exact exec_of_bad_target (c := wordIsFalse) rfl hx ht (decide_eq_true hzero) hr

/-- Settles O22: the effect of halt has no case that faults. -/
theorem haltStops : Obligations.HaltStops :=
  fun _ => exec_of_effect_ok rfl

/-- Settles O23: both kinds of storing instruction leave a `MemoryFrame` around the destination's address. -/
theorem frameOfStoringForms : Obligations.FrameOfStoringForms := by
  refine fun s u => ⟨fun mk a b d hmk h => ?_, fun d h => ?_⟩
  · obtain ⟨alu, halu⟩ := hmk.effect_eq
    obtain ⟨hmem, hiq, hoq⟩ := exec_threeOperand_frame (halu a b d s) h
    exact ⟨hmem.read_other, hmem.eq_of_no_address, hmem.len, hiq, hoq⟩
  · obtain ⟨hmem, hiq, hoq⟩ := exec_input_frame h
    exact ⟨hmem.read_other, hmem.eq_of_no_address, hmem.len, hiq, hoq⟩

/-- Settles O24: one frame for halt, one for both jumps and one for output. -/
theorem frameOfNonStoringForms : Obligations.FrameOfNonStoringForms := by
  refine fun s u => ⟨fun i hi h => ?_, fun a h => exec_output_frame h⟩
  obtain rfl | ⟨a, g, rfl | rfl⟩ := hi
  · cases (haltStops s).symm.trans h
    exact ⟨rfl, rfl, rfl⟩
  · exact exec_jump_frame (c := wordIsTrue) rfl h
  · exact exec_jump_frame (c := wordIsFalse) rfl h

/-- Settles O25: an instruction ends with its effect, which keeps `FC` and `FI`, or with a fault entry. -/
theorem instructionsChangeOnlyTheirEngine : Obligations.InstructionsChangeOnlyTheirEngine := by
  intro i s
  cases he : effect i s with
  | error f => exact ⟨_, exec_of_effect_error he, rfl, .inl rfl, .inr (.inl rfl)⟩
  | ok e =>
    obtain ⟨-, -, -, -, -, hfc, hfi⟩ := effect_ok he
    refine ⟨_, exec_of_effect_ok he, rfl, .inr ⟨hfc, hfi⟩, ?_⟩
    obtain hst | hblocked | hhalted := effect_ok_st he
    · exact .inl hst
    · exact .inr (.inr (.inl hblocked))
    · exact .inr (.inr (.inr hhalted))

/-- Settles O26: an effect that completes does not end Faulted, so such a step is a fault entry. -/
theorem faultsArePrecise : Obligations.FaultsArePrecise := by
  refine ⟨fun i s u h hu hs => ?_, fun s u h hu hs => ?_⟩
  · obtain ⟨e, he, rfl⟩ | ⟨f, hf, rfl⟩ := exec_next h
    · exact absurd hu (effect_ok_not_faulted he hs)
    · exact ⟨rfl, (effect_error hf).infoOk.1⟩
  · obtain ⟨-, rfl⟩ | ⟨-, ⟨f, hf, rfl⟩ | ⟨i, f, -, hf, rfl⟩ | ⟨i, e, -, he, rfl⟩⟩ := executeStep_cases h
    · exact absurd hu hs
    · exact ⟨rfl, (fetch_error_infoOk s.cfg hf).1⟩
    · exact ⟨rfl, (effect_error hf).infoOk.1⟩
    · exact absurd hu (effect_ok_not_faulted he (by simp))

/-- Settles O27: the word is stored at the address `IP` advances to. -/
theorem storedWordIsFetchedNext : Obligations.StoredWordIsFetchedNext := by
  refine ⟨fun mk a b d s x y hmk hx hy ht => ?_, fun d s v q ht hq => ?_⟩
  · obtain ⟨alu, halu⟩ := hmk.effect_eq
    obtain ⟨u, hu, hstored⟩ := exec_of_threeOperand (halu a b d s) hx hy ht
    refine ⟨u, _, hu, hstored, ?_⟩
    obtain ⟨hframe, -, hread, -⟩ := hstored
    have hip : u.eng.ip = s.eng.ip + 4 := by rw [hframe]
    exact fetchesNext_of_read (by rw [hip]; exact hread) (by rw [hframe])
  · obtain ⟨m, hw, he⟩ := exec_input_of_cons ht hq
    exact ⟨_, he, rfl, rfl, fetchesNext_of_read (Memory.read_write_self hw) rfl⟩
end

section
/-! The statements on Memory (20_memory.md section 1), on `wrap64` (00_scope.md R7) and on the host's operations on an Engine
(46_host-interface.md section 2), among them the clone. -/

namespace Sys2Proof.Machine

/-! ### Memory outside its range -/

theorem memRead_of_not_range {m : Memory} {a : Int} (h : ¬ (0 ≤ a ∧ a < (m.len : Int))) :
    memRead m a = .error (outOfBoundsAt a) :=
  memRead_error_iff.2 ⟨read_none_iff_range.2 h, rfl⟩

theorem Memory.write_of_not_range {m : Memory} {a : Int} (h : ¬ (0 ≤ a ∧ a < (m.len : Int))) (v : Word) :
    m.write a v = none := by
  rw [← Memory.inRange_iff] at h
  exact if_neg h

theorem memWrite_of_not_range {m : Memory} {a : Int} (h : ¬ (0 ≤ a ∧ a < (m.len : Int))) (v : Word) :
    memWrite m a v = .error (outOfBoundsAt a) := by
  simp only [memWrite, Memory.write_of_not_range h v]

/-! ### The canonical form has one list of cells for each content -/

theorem cellsWf_cons {len lo b : Nat} {w : Word} {cs : List (Nat × Word)} (h : cellsWf len lo ((b, w) :: cs) = true) :
    lo ≤ b ∧ b < len ∧ w ≠ Memory.blank ∧ cellsWf len (b + 1) cs = true := by
  simpa [cellsWf, and_assoc] using h

theorem cellsGet_eq_blank {len a lo : Nat} {cs : List (Nat × Word)} (h : cellsWf len lo cs = true)
    (ha : a < lo ∨ len ≤ a) : cellsGet cs a = Memory.blank := by
  induction cs generalizing lo with
  | nil => rfl
  | cons c cs ih =>
    obtain ⟨b, w⟩ := c
    obtain ⟨hlo, hlen, -, hcs⟩ := cellsWf_cons h
    rw [cellsGet, if_neg (by omega)]
    exact ih hcs (by omega)

theorem cellsGet_head (b : Nat) (w : Word) (cs : List (Nat × Word)) : cellsGet ((b, w) :: cs) b = w :=
  if_pos rfl

/-- The first index with a word other than blank is the first entry of both lists; behind it they agree again. -/
theorem cells_eq_of_get_eq {len lo : Nat} {cs cs' : List (Nat × Word)} (h : cellsWf len lo cs = true)
    (h' : cellsWf len lo cs' = true) (hget : ∀ a, cellsGet cs a = cellsGet cs' a) : cs = cs' := by
  induction cs generalizing lo cs' with
  | nil =>
    cases cs' with
    | nil => rfl
    | cons c cs' =>
      obtain ⟨b, w⟩ := c
      obtain ⟨-, -, hw, -⟩ := cellsWf_cons h'
      exact absurd ((hget b).trans (cellsGet_head b w cs')).symm hw
  | cons c cs ih =>
    obtain ⟨b, w⟩ := c
    obtain ⟨hlo, hlen, hw, hcs⟩ := cellsWf_cons h
    cases cs' with
    | nil => exact absurd ((cellsGet_head b w cs).symm.trans (hget b)) hw
    | cons c' cs' =>
      obtain ⟨b', w'⟩ := c'
      obtain ⟨hlo', hlen', hw', hcs'⟩ := cellsWf_cons h'
      have hb : b = b' := by
        rcases Nat.lt_trichotomy b b' with hlt | heq | hgt
        · have hblank : cellsGet ((b', w') :: cs') b = Memory.blank := by
            rw [cellsGet, if_neg (by omega)]
            exact cellsGet_eq_blank hcs' (by omega)
          exact absurd ((cellsGet_head b w cs).symm.trans ((hget b).trans hblank)) hw
        · exact heq
        · have hblank : cellsGet ((b, w) :: cs) b' = Memory.blank := by
            rw [cellsGet, if_neg (by omega)]
            exact cellsGet_eq_blank hcs (by omega)
          exact absurd ((cellsGet_head b' w' cs').symm.trans ((hget b').symm.trans hblank)) hw'
      subst hb
      have hww : w = w' := (cellsGet_head b w cs).symm.trans ((hget b).trans (cellsGet_head b w' cs'))
      have hrest : ∀ a, cellsGet cs a = cellsGet cs' a := by
        intro a
        by_cases ha : b = a
        · rw [cellsGet_eq_blank hcs (by omega), cellsGet_eq_blank hcs' (by omega)]
        · simpa [cellsGet, ha] using hget a
      rw [hww, ih hcs hcs' hrest]

theorem Memory.eq_of_read_eq {m m' : Memory} (h : m.wf = true) (h' : m'.wf = true) (hlen : m.len = m'.len)
    (hread : ∀ a : Int, m.read a = m'.read a) : m = m' := by
  obtain ⟨len, cells⟩ := m
  obtain ⟨len', cells'⟩ := m'
  obtain rfl : len = len' := hlen
  have hget : ∀ a, cellsGet cells a = cellsGet cells' a := by
    intro a
    by_cases ha : a < len
    · simpa [Memory.read, Memory.inRange, ha] using hread a
    · rw [cellsGet_eq_blank h (by simp only; omega), cellsGet_eq_blank h' (by simp only; omega)]
  rw [show cells = cells' from cells_eq_of_get_eq h h' hget]

/-! ### The word congruent to an integer -/

theorem eq_wrap64_iff (x : Int) (w : Word) : (w.toInt - x) % 2 ^ 64 = 0 ↔ w = wrap64 x := by
  have hw := wrap64_toInt x
  constructor
  · intro h
    have hlo : -2 ^ 63 ≤ w.toInt := BitVec.le_toInt w
    have hhi : w.toInt < 2 ^ 63 := BitVec.toInt_lt
    refine BitVec.eq_of_toInt_eq ?_
    simp only [wrapFormula] at hw
    omega
  · rintro rfl
    simp only [wrapFormula] at hw
    omega

/-! ### Operations on one Engine -/

theorem fits_iff {capacity : Option Nat} {n : Nat} : fits capacity n = true ↔ ∀ c, capacity = some c → n ≤ c := by
  cases capacity <;> simp [fits]

theorem Engine.load_of_fits {cfg : Config} {image : List Word} (h : fits cfg.memWords image.length = true) :
    Engine.load cfg image = .ok { Engine.reset with mem := Memory.ofImage image } :=
  if_pos h

theorem Engine.write_of_not_full {cfg : Config} {e : Engine} (h : queueFull cfg.iqDepth e.iq = false) (v : Word) :
    e.write cfg v = .ok { e with iq := e.iq ++ [v] } := by
  rw [Engine.write, if_neg (by simp [h]), enqueue]

theorem Engine.write_of_full {cfg : Config} {e : Engine} (h : queueFull cfg.iqDepth e.iq = true) (v : Word) :
    e.write cfg v = .error .inputQueueFull :=
  if_pos h

theorem serve_write (fuel : Nat) (v : Word) (s : State) :
    serve fuel (.write v) s = some (s.update (s.eng.write s.cfg v)) := rfl

theorem serve_poke (fuel : Nat) (a : Nat) (v : Word) (s : State) :
    serve fuel (.poke a v) s = some (s.update (s.eng.poke a v)) := rfl

theorem serve_peek_ok {fuel : Nat} {a : Nat} {s : State} {w : Word} (h : s.eng.mem.read a = some w) :
    serve fuel (.peek a) s = some (.word w, s) := by
  simp only [serve, Engine.peek, h]

theorem serve_peek_error {fuel : Nat} {a : Nat} {s : State} (h : s.eng.mem.read a = none) :
    serve fuel (.peek a) s = some (.refused .addressOutOfBounds, s) := by
  simp only [serve, Engine.peek, h]

/-- `peek_memory` changes nothing, whether it is refused or not. -/
theorem serve_peek_state {fuel : Nat} {a : Nat} {s t : State} {r : HostResponse}
    (h : serve fuel (.peek a) s = some (r, t)) : t = s := by
  cases hread : s.eng.mem.read a with
  | none => rw [serve_peek_error hread] at h; cases h; rfl
  | some w => rw [serve_peek_ok hread] at h; cases h; rfl

theorem serve_poke_error {fuel : Nat} {a : Nat} {v : Word} {s : State} (h : s.eng.mem.write a v = none) :
    serve fuel (.poke a v) s = some (.refused .addressOutOfBounds, s) := by
  rw [serve_poke, Engine.poke, h]
  rfl

theorem serve_poke_ok {fuel : Nat} {a : Nat} {v : Word} {s : State} {m : Memory} (h : s.eng.mem.write a v = some m) :
    serve fuel (.poke a v) s = some (.done, s.withEngine { s.eng with mem := m }) := by
  rw [serve_poke, Engine.poke, h]
  rfl

/-! ### What the operations leave alone -/

/-- The registers that only `load` and `execute` change. -/
def Engine.status (e : Engine) : ExecState × FaultCode × Word × Nat := (e.st, e.fc, e.fi, e.ip)

theorem Engine.write_status {cfg : Config} {v : Word} {e e' : Engine} (h : e.write cfg v = .ok e') :
    e'.status = e.status := by
  obtain ⟨-, rfl⟩ := Engine.write_ok h
  rfl

theorem Engine.poke_status {a : Nat} {v : Word} {e e' : Engine} (h : e.poke a v = .ok e') : e'.status = e.status := by
  obtain ⟨m, -, rfl⟩ := Engine.poke_ok h
  rfl

theorem Engine.read_status (e : Engine) : e.read.2.status = e.status := by
  cases hoq : e.oq with
  | nil => rw [Engine.read_of_oq_nil hoq]
  | cons v q => rw [Engine.read_of_oq_cons hoq]; rfl

theorem State.update_status {s : State} {o : Except Refusal Engine} (h : ∀ e, o = .ok e → e.status = s.eng.status) :
    (s.update o).2.eng.status = s.eng.status := by
  cases o with
  | ok e => exact h e rfl
  | error r => rfl

/-- An operation on the Engine in focus reaches no Engine around it. -/
theorem serve_onOneEngine {fuel : Nat} {q : HostRequest} {s t : State} {r : HostResponse} (hq : OnOneEngine q)
    (h : serve fuel q s = some (r, t)) : t.before = s.before ∧ t.after = s.after := by
  have update : ∀ {o}, some (s.update o) = some (r, t) → t.before = s.before ∧ t.after = s.after := by
    intro o ho
    rw [State.eq_of_update ho]
    exact ⟨s.update_before o, s.update_after o⟩
  obtain rfl | rfl | ⟨image, rfl⟩ | ⟨v, rfl⟩ | ⟨a, rfl⟩ | ⟨a, v, rfl⟩ := hq
  · cases h; exact ⟨rfl, rfl⟩
  · obtain ⟨o, ho, hanswer⟩ := Option.map_eq_some_iff.1 h
    obtain rfl | rfl := executeAnswer_eq hanswer
    · refine execute_invariant (P := fun u => u.before = s.before ∧ u.after = s.after) (fun u w hu hw => ?_) ho ⟨rfl, rfl⟩
      rw [executeStep_next hw]
      exact hu
    · exact ⟨rfl, rfl⟩
  · exact update h
  · exact update h
  · rw [serve_peek_state h]; exact ⟨rfl, rfl⟩
  · exact update h

theorem request_onOneEngine {fuel : Nat} {q : HostRequest} {s t : State} {r : HostResponse} (hs : s.pst ≠ .running)
    (hq : OnOneEngine q) (h : request fuel q s = some (r, t)) : t.before = s.before ∧ t.after = s.after :=
  serve_onOneEngine hq (by rwa [request_of_not_running hs] at h)

/-! ### The clone -/

/-- The block with a clone behind the Engine in focus. -/
def State.cloned (s : State) : State := { s with after := s.eng :: s.after }

/-- The same once the host has turned to the clone. -/
def State.atClone (s : State) : State := { s with before := s.before ++ [s.eng] }

theorem serve_clone (fuel : Nat) (s : State) : serve fuel .clone s = some (.done, s.cloned) := rfl

theorem State.cloned_select (s : State) : s.cloned.select (s.cur + 1) = .ok s.atClone := by
  have hdrop : s.cloned.stages.drop (s.cur + 1) = s.eng :: s.after := by
    simp [State.cloned, State.stages, State.cur, List.drop_append]
  have htake : s.cloned.stages.take (s.cur + 1) = s.before ++ [s.eng] := by
    simp [State.cloned, State.stages, State.cur, List.take_append]
  simp only [State.select, hdrop, htake]
  rfl

end Sys2Proof.Machine

open Sys2Proof Sys2Proof.Machine

/-- Settles O40: in range each clause is a law of `Memory.write`, out of range both accesses find no word. -/
theorem memWriteReplacesOneWord : Obligations.MemWriteReplacesOneWord := by
  refine fun m a v => ⟨fun h => ⟨memRead_of_not_range h, memWrite_of_not_range h v⟩, fun hlo hhi => ?_⟩
  have hw := Memory.write_of_inRange ((Memory.inRange_iff m a).2 ⟨hlo, hhi⟩) v
  exact ⟨_, memWrite_ok_iff.2 hw, rfl, Memory.read_write_self hw, fun b hb => Memory.read_write_other hw hb,
    Memory.write_wf hw⟩

/-- Settles O41, by induction on the cells. -/
theorem canonicalMemoriesAreEqual : Obligations.CanonicalMemoriesAreEqual :=
  fun _ _ => Memory.eq_of_read_eq

/-- Settles O43: the words are one whole range of integers modulo `2^64`. -/
theorem wrapIsTheCongruentWord : Obligations.WrapIsTheCongruentWord :=
  fun x => ⟨wrap64_toInt x, eq_wrap64_iff x⟩

/-- Settles O44: the Engine is that of reset but for its Memory, which `Memory.read_ofImage` compares with the image. -/
theorem loadBuildsAFreshEngine : Obligations.LoadBuildsAFreshEngine := by
  refine fun cfg image => ⟨fun n hn hlong => if_neg ?_, fun hfits => ?_⟩
  · rw [fits_iff]
    exact fun h => absurd (h n hn) (by omega)
  · have hload := Engine.load_of_fits (fits_iff.2 hfits)
    exact ⟨_, hload, rfl, Memory.read_ofImage image, rfl, rfl, rfl, rfl, rfl, rfl, Engine.load_is_ok hload⟩

/-- Settles O46: `write` is turned away exactly where `queueFull` holds. -/
theorem hostWriteAppends : Obligations.HostWriteAppends := by
  refine fun fuel s v hs => ⟨fun hroom => ?_, fun n hn hfull => ?_⟩
  · rw [request_of_not_running hs, serve_write, Engine.write_of_not_full (queueFull_eq_false_iff.2 hroom)]
    rfl
  · rw [request_of_not_running hs, serve_write, Engine.write_of_full (queueFull_of_length_eq hn hfull)]
    rfl

/-- Settles O47: both accesses find no word outside `0 .. L-1`, and a poke inside is one `Memory.write`. -/
theorem peekAndPoke : Obligations.PeekAndPoke := by
  intro fuel s a v hs
  rw [request_of_not_running hs, request_of_not_running hs]
  refine ⟨fun w hw => serve_peek_ok hw, fun hout => ⟨?_, ?_⟩, fun hin => ?_⟩
  · exact serve_peek_error (read_none_iff_range.2 (by omega))
  · exact serve_poke_error (Memory.write_of_not_range (by omega) v)
  · have hw := Memory.write_of_inRange ((Memory.inRange_iff s.eng.mem a).2 ⟨by omega, by omega⟩) v
    exact ⟨_, serve_poke_ok hw, storedOne_of_write hw 0⟩

/-- Settles O48: each of the four operations keeps `Engine.status`, refused or not. -/
theorem hostOperationsKeepStatus : Obligations.HostOperationsKeepStatus := by
  intro fuel q s t r hq h
  suffices hstatus : t.eng.status = s.eng.status by simpa [Engine.status] using hstatus
  unfold request at h
  split at h
  case isTrue => cases h; rfl
  case isFalse =>
    obtain rfl | ⟨v, rfl⟩ | ⟨a, rfl⟩ | ⟨a, v, rfl⟩ := hq
    · cases h
      exact Engine.read_status _
    · rw [State.eq_of_update h]
      exact State.update_status fun e => Engine.write_status
    · rw [serve_peek_state h]
    · rw [State.eq_of_update h]
      exact State.update_status fun e => Engine.poke_status

/-- Settles O49: the clone stands behind its original, and an operation reaches no Engine around the one in focus. -/
theorem cloneIsIndependent : Obligations.CloneIsIndependent := by
  intro fuel s t r hs h
  rw [request_of_not_running hs, serve_clone] at h
  cases h
  have hclone : s.cloned.pst ≠ .running := hs
  have hturned : s.atClone.pst ≠ .running := hs
  refine ⟨⟨rfl, rfl, fun q u r' hq hu => ?_⟩, s.atClone, ?_, rfl, ?_, fun q u r' hq hu => ?_⟩
  · rw [(request_onOneEngine hclone hq hu).2]
    rfl
  · simp only [request_of_not_running hclone, serve, State.cloned_select]
  · exact (State.select_ok s.cloned_select).1
  · rw [(request_onOneEngine hturned hq hu).1]
    exact List.getLast?_concat
end

section
/-! The statements on the rounds of the ring (47_orchestrator.md R109 to R115): how a run ends, what a round changes in the
other stages, and why a deadlocked ring goes round for ever. -/

namespace Sys2Proof.Machine

/-! ### The end of a run -/

theorem State.after_eq_nil_iff (s : State) : s.after = [] ↔ s.cur + 1 = s.numStages := by
  rw [State.cur, State.numStages, ← List.length_eq_zero_iff]
  omega

theorem State.afterStep_of_final_halt {s : State} (hst : s.eng.st = .halted) (hfinal : s.cur + 1 = s.numStages) :
    s.afterStep = .next s.finish := by
  refine State.afterStep_of_endRound (by simp [hst]) ?_
  simp only [State.endRound, hst, if_pos (s.after_eq_nil_iff.2 hfinal)]

theorem State.afterStep_of_faulted {s : State} (hst : s.eng.st = .faulted) : s.afterStep = .next s.abort := by
  refine State.afterStep_of_endRound (by simp [hst]) ?_
  simp only [State.endRound, hst]

/-- A run returns what its last round has left. -/
theorem runRing_of_afterStep {s u t : State} (hp : s.pst = .running) (he : executeStep s = .next u)
    (hu : u.afterStep = .next t) (ht : t.pst ≠ .running) (fuel : Nat) : runRing (fuel + 1) s = some (.next t) := by
  rw [runRing_succ ((step_of_running hp he).trans hu), if_neg ht]

/-! ### A round with nothing to relay -/

theorem Engine.drained_of_oq_nil {e : Engine} (h : e.oq = []) : e.drained = e := by
  rw [Engine.drained, ← h]

/-- With an empty `OQ` no relay is turned away, whatever the depths, and no stage changes. -/
theorem State.relayNext_of_oq_nil {s : State} (h : s.eng.oq = []) : ∃ t, s.relayNext = .ok t ∧ t.stages = s.stages := by
  unfold State.relayNext
  split
  case h_1 e rest hafter =>
    exact ⟨_, by simp only [h, relayInto]; rfl, by simp [State.stages, Engine.drained_of_oq_nil h, hafter]⟩
  case h_2 e rest hafter hbefore =>
    exact ⟨_, by simp only [h, relayInto]; rfl, by simp [State.stages, Engine.drained_of_oq_nil h, hafter, hbefore]⟩
  case h_3 hafter hbefore =>
    exact ⟨_, by simp only [h, relayInto]; rfl, by simp [State.stages, Engine.drained_of_oq_nil h, hafter, hbefore]⟩

/-- A stage that its step leaves as it is, Blocked or Halted with nothing to relay, only passes its turn. -/
theorem step_passes_turn {s : State} (hp : s.pst = .running) (he : executeStep s = .next s) (hoq : s.eng.oq = [])
    (hst : s.eng.st = .blocked ∨ (s.eng.st = .halted ∧ s.cur + 1 < s.numStages)) :
    ∃ t : State, step s = .next t ∧ t.stages = s.stages ∧ t.cur = (s.cur + 1) % s.numStages ∧ t.pst = .running := by
  obtain ⟨t, ht, hstages⟩ := State.relayNext_of_oq_nil hoq
  refine ⟨t, (step_of_running hp he).trans (State.afterStep_of_relayNext hst ht), hstages, State.relayNext_cur ht, ?_⟩
  rw [State.relayNext_frame ht]
  exact hp

/-! ### The other stages -/

theorem State.withEngine_getElem?_of_ne (s : State) (e : Engine) {j : Nat} (hj : j ≠ s.cur) :
    (s.withEngine e).stages[j]? = s.stages[j]? := by
  rw [State.cur] at hj
  rw [State.withEngine_stages, State.stages, List.getElem?_append, List.getElem?_append, List.getElem?_cons,
    List.getElem?_cons]
  split
  · rfl
  · rw [if_neg (by omega), if_neg (by omega)]

/-- A round relays to the next stage or changes no stage at all. -/
theorem State.endRound_getElem? {s t : State} (h : s.endRound = .ok t) {j : Nat} (hj : j ≠ s.cur) :
    t.stages[j]? = s.stages[j]? ∨
      (j = (s.cur + 1) % s.numStages ∧
        t.stages[j]? = s.stages[j]?.map fun e => { e with iq := e.iq ++ s.eng.oq }) := by
  obtain ⟨-, rfl⟩ | ⟨-, -, rfl⟩ | ⟨-, -, hr⟩ := State.endRound_ok h
  · exact .inl rfl
  · exact .inl rfl
  · have hj' := State.relayNext_getElem? hr j
    simp only [if_neg hj] at hj'
    by_cases hnext : j = (s.cur + 1) % s.numStages
    · simp only [if_pos hnext] at hj'
      exact .inr ⟨hnext, hj'⟩
    · simp only [if_neg hnext] at hj'
      exact .inl (hj'.trans Option.map_id')

theorem step_getElem? {s t : State} (h : step s = .next t) {j : Nat} (hj : j ≠ s.cur) :
    t.stages[j]? = s.stages[j]? ∨
      (s.pst = .running ∧ j = (s.cur + 1) % s.numStages ∧
        ∃ vs : List Word, t.stages[j]? = s.stages[j]?.map fun e => { e with iq := e.iq ++ vs }) := by
  have others : ∀ {u}, executeStep s = .next u → u.stages[j]? = s.stages[j]? := by
    intro u hu
    rw [executeStep_next hu, State.withEngine_getElem?_of_ne s _ hj]
  obtain ⟨-, rfl⟩ | ⟨-, he⟩ | ⟨hp, u, he, ⟨-, rfl⟩ | ⟨-, hr⟩⟩ := step_cases h
  · exact .inl rfl
  · exact .inl (others he)
  · exact .inl (others he)
  · have hcur : u.cur = s.cur := by rw [executeStep_next he, State.withEngine_cur]
    have hnum : u.numStages = s.numStages := by rw [executeStep_next he, State.withEngine_numStages]
    rw [← others he, ← hcur, ← hnum]
    obtain hsame | ⟨hnext, hgain⟩ := State.endRound_getElem? hr (hcur ▸ hj)
    · exact .inl hsame
    · exact .inr ⟨hp, hnext, _, hgain⟩

/-! ### Deadlock -/

theorem executeStep_of_waits {s : State} (h : WaitsForInput s.eng) : executeStep s = .next s := by
  obtain ⟨hst, hiq, d, t, hfetch, ht⟩ := h
  exact (inputBlocksOnEmptyQueue d s t ht hiq).2 hfetch hst

/-- A round of a deadlocked ring: the current stage waits, or has halted without being the final one, and passes its
turn. -/
theorem deadlocked_step {s : State} (h : Deadlocked s) :
    ∃ t : State, step s = .next t ∧ t.stages = s.stages ∧ t.cur = (s.cur + 1) % s.numStages ∧ Deadlocked t := by
  obtain ⟨hp, hall, hlast⟩ := h
  obtain ⟨hoq, hstuck⟩ := hall _ s.eng_mem_stages
  have hturn : executeStep s = .next s ∧ (s.eng.st = .blocked ∨ (s.eng.st = .halted ∧ s.cur + 1 < s.numStages)) := by
    obtain hwaits | hhalted := hstuck
    · exact ⟨executeStep_of_waits hwaits, .inl hwaits.1⟩
    · refine ⟨executeStep_of_not_executes (by simp [Executes, hhalted]), .inr ⟨hhalted, ?_⟩⟩
      have hnotFinal : s.cur + 1 ≠ s.numStages := by
        intro hfinal
        refine hlast s.eng ?_ hhalted
        simp [State.stages, s.after_eq_nil_iff.2 hfinal]
      have hle : s.cur + 1 ≤ s.numStages := by rw [State.cur, State.numStages]; omega
      omega
  obtain ⟨t, hstep, hstages, hcur, hpt⟩ := step_passes_turn hp hturn.1 hoq hturn.2
  exact ⟨t, hstep, hstages, hcur, hpt, hstages ▸ hall, hstages ▸ hlast⟩

theorem deadlocked_hangs {s : State} (h : Deadlocked s) (fuel : Nat) : runRing fuel s = none := by
  induction fuel generalizing s with
  | zero => rfl
  | succ k ih =>
    obtain ⟨t, hstep, -, -, ht⟩ := deadlocked_step h
    rw [runRing_succ hstep, if_pos ht.1]
    exact ih ht

end Sys2Proof.Machine

open Sys2Proof Sys2Proof.Machine

/-- Settles O52: the round ends in `State.finish`, and neither a run nor a step goes on from there. -/
theorem finalHaltEndsTheRun : Obligations.FinalHaltEndsTheRun :=
  ⟨fun _ => State.afterStep_of_final_halt,
    fun _ _ hp he hst hfinal => runRing_of_afterStep hp he (State.afterStep_of_final_halt hst hfinal) (by simp),
    fun _ => step_of_done⟩

/-- Settles O53: the round ends in `State.abort`, and neither a run nor a step goes on from there. -/
theorem faultAbortsTheRun : Obligations.FaultAbortsTheRun :=
  ⟨fun _ => State.afterStep_of_faulted,
    fun _ _ hp he hst => runRing_of_afterStep hp he (State.afterStep_of_faulted hst) (by simp),
    fun _ => step_of_aborted⟩

/-- Settles O54: a Halted stage does not fetch and has nothing to relay, so it passes its turn. -/
theorem haltedStageStaysInTheRing : Obligations.HaltedStageStaysInTheRing := by
  intro s hp hst hoq hnotFinal
  have he : executeStep s = .next s := executeStep_of_not_executes (by simp [Executes, hst])
  obtain ⟨t, hstep, hstages, hcur, hpt⟩ := step_passes_turn hp he hoq (.inr ⟨hst, hnotFinal⟩)
  exact ⟨t, hstep, hstages, hcur.trans (Nat.mod_eq_of_lt hnotFinal), hpt⟩

/-- Settles O55: only a relay reaches another stage, and it reaches the next one's `IQ`. -/
theorem otherEnginesOnlyGainInput : Obligations.OtherEnginesOnlyGainInput := by
  intro s t j h hj
  obtain hsame | ⟨hp, hnext, vs, hgain⟩ := step_getElem? h hj
  · refine ⟨fun _ => hsame, [], hsame.trans ?_⟩
    simp only [List.append_nil]
    exact Option.map_id'.symm
  · exact ⟨fun hout => absurd hout (by simp [hp, hnext]), vs, hgain⟩

/-- Settles O56: a round of a deadlocked ring leaves it deadlocked, so by induction on the fuel no run of it ends. -/
theorem deadlockedRingHangs : Obligations.DeadlockedRingHangs :=
  fun _ h => ⟨deadlocked_step h, deadlocked_hangs h⟩
end

section
/-! The statements on text: the program text (46_host-interface.md R105), its decimal tokens, the assembly
(30_encoding.md R64), and the codes of `ST` and `FC`. -/

namespace Sys2Proof.Machine

/-! ### Splitting -/

theorem splitAtChar_ne_nil (d : Char) (cs : List Char) : splitAtChar d cs ≠ [] := by
  cases cs with
  | nil => simp [splitAtChar]
  | cons c cs =>
    rw [splitAtChar]
    split
    · simp
    · split <;> simp

theorem splitAtChar_append (d : Char) (a b : List Char) :
    splitAtChar d (a ++ d :: b) = splitAtChar d a ++ splitAtChar d b := by
  induction a with
  | nil => simp [splitAtChar]
  | cons c a ih =>
    rw [List.cons_append, splitAtChar, splitAtChar, ih]
    split
    · rfl
    · cases ha : splitAtChar d a with
      | nil => exact absurd ha (splitAtChar_ne_nil d a)
      | cons t ts => rfl

theorem splitAtChar_of_not_mem {d : Char} {cs : List Char} (h : d ∉ cs) : splitAtChar d cs = [cs] := by
  induction cs with
  | nil => rfl
  | cons c cs ih =>
    rw [List.mem_cons, not_or] at h
    obtain ⟨hc, hcs⟩ := h
    rw [splitAtChar, if_neg (Ne.symm hc), ih hcs]

/-! ### White space -/

/-- What `trim` takes off is white space, at both ends. -/
theorem trim_spec (cs : List Char) :
    ∃ l r, cs = l ++ trim cs ++ r ∧ l.all isBlank = true ∧ r.all isBlank = true := by
  have hl := List.takeWhile_append_dropWhile (p := isBlank) (l := cs)
  have hr := List.takeWhile_append_dropWhile (p := isBlank) (l := (cs.dropWhile isBlank).reverse)
  refine ⟨cs.takeWhile isBlank, ((cs.dropWhile isBlank).reverse.takeWhile isBlank).reverse, ?_, ?_, ?_⟩
  · rw [trim, List.append_assoc, ← List.reverse_append, hr, List.reverse_reverse, hl]
  · exact List.all_eq_true.2 fun c hc => List.mem_takeWhile_imp hc
  · exact List.all_eq_true.2 fun c hc => List.mem_takeWhile_imp (List.mem_reverse.1 hc)

theorem dropWhile_isBlank_eq_self {cs : List Char} (h : ∀ c ∈ cs, isBlank c = false) : cs.dropWhile isBlank = cs := by
  cases cs with
  | nil => rfl
  | cons c cs => exact List.dropWhile_cons_of_neg (by simp [h c List.mem_cons_self])

theorem dropWhile_isBlank_append {l cs : List Char} (hl : l.all isBlank = true) :
    (l ++ cs).dropWhile isBlank = cs.dropWhile isBlank :=
  List.dropWhile_append_of_pos (List.all_eq_true.1 hl)

theorem trim_append {l cs r : List Char} (hl : l.all isBlank = true) (hr : r.all isBlank = true)
    (h : ∀ c ∈ cs, isBlank c = false) (hne : cs ≠ []) : trim (l ++ cs ++ r) = cs := by
  obtain ⟨c, rest, rfl⟩ := List.exists_cons_of_ne_nil hne
  have hhead : (l ++ (c :: rest) ++ r).dropWhile isBlank = (c :: rest) ++ r := by
    rw [List.append_assoc, dropWhile_isBlank_append hl, List.cons_append]
    exact List.dropWhile_cons_of_neg (by simp [h c List.mem_cons_self])
  rw [trim, hhead, List.reverse_append, dropWhile_isBlank_append (by simpa using hr),
    dropWhile_isBlank_eq_self fun x hx => h x (List.mem_reverse.1 hx), List.reverse_reverse]

/-! ### Decimal digits -/

theorem digitChar_toNat {d : Nat} (h : d < 10) : (digitChar d).toNat = 48 + d := by
  have all : ∀ d < 10, (digitChar d).toNat = 48 + d := by decide
  exact all d h

theorem digitChar_isDecimal {d : Nat} (h : d < 10) : isDecimal (digitChar d) = true := by
  rw [isDecimal, digitChar_toNat h]
  simp only [Bool.and_eq_true, decide_eq_true_eq]
  omega

theorem eq_digitChar_of_isDecimal {c : Char} (h : isDecimal c = true) : ∃ d < 10, c = digitChar d := by
  simp only [isDecimal, Bool.and_eq_true, decide_eq_true_eq] at h
  refine ⟨c.toNat - 48, by omega, ?_⟩
  rw [digitChar, show 48 + (c.toNat - 48) = c.toNat by omega, Char.ofNat_toNat]

/-- A decimal digit is neither white space nor a sign. -/
theorem digitChar_ne {d : Nat} (h : d < 10) :
    isBlank (digitChar d) = false ∧ digitChar d ≠ '-' ∧ digitChar d ≠ '+' := by
  have all : ∀ d < 10, isBlank (digitChar d) = false ∧ digitChar d ≠ '-' ∧ digitChar d ≠ '+' := by decide
  exact all d h

/-- A number's digits as a token: the digits themselves, most significant first, behind as many zeros. -/
def paddedDigits (zeros n : Nat) : List Nat := (Nat.digits 10 n ++ List.replicate zeros 0).reverse

theorem paddedChars_eq (zeros n : Nat) : paddedChars zeros n = (paddedDigits zeros n).map digitChar := by
  simp [paddedChars, decimalChars, paddedDigits, digitChar]

theorem paddedDigits_lt {zeros n d : Nat} (h : d ∈ paddedDigits zeros n) : d < 10 := by
  rw [paddedDigits, List.mem_reverse, List.mem_append] at h
  obtain h | h := h
  · exact Nat.digits_lt_base (by decide) h
  · rw [(List.mem_replicate.1 h).2]; decide

theorem paddedDigits_ne_nil {zeros n : Nat} (h : 0 < n ∨ 0 < zeros) : paddedDigits zeros n ≠ [] := by
  rw [paddedDigits, ne_eq, List.reverse_eq_nil_iff, List.append_eq_nil_iff, Nat.digits_eq_nil_iff_eq_zero,
    List.replicate_eq_nil_iff]
  omega

theorem foldl_digitChar {ds : List Nat} (h : ∀ d ∈ ds, d < 10) :
    (ds.map digitChar).foldl (fun n c => 10 * n + (c.toNat - 48)) 0 = Nat.ofDigits 10 ds.reverse := by
  rw [Nat.ofDigits_eq_foldr, List.foldr_reverse, List.foldl_map]
  refine List.foldl_ext _ _ 0 fun n d hd => ?_
  rw [digitChar_toNat (h d hd)]
  simp only [Nat.cast_id]
  omega

theorem natOfChars_padded {zeros n : Nat} (h : 0 < n ∨ 0 < zeros) : natOfChars (paddedChars zeros n) = some n := by
  have hne := paddedDigits_ne_nil h
  have hall : ((paddedDigits zeros n).map digitChar).all isDecimal = true := by
    rw [List.all_map, List.all_eq_true]
    exact fun d hd => digitChar_isDecimal (paddedDigits_lt hd)
  have hvalue : Nat.ofDigits 10 (paddedDigits zeros n).reverse = n := by
    rw [paddedDigits, List.reverse_reverse, Nat.ofDigits_append_replicate_zero, Nat.ofDigits_digits]
  rw [paddedChars_eq, natOfChars, if_pos ⟨by simpa using hne, hall⟩, foldl_digitChar fun d => paddedDigits_lt, hvalue]

theorem natOfChars_some {cs : List Char} {n : Nat} (h : natOfChars cs = some n) :
    cs ≠ [] ∧ ∀ c ∈ cs, ∃ d < 10, c = digitChar d := by
  unfold natOfChars at h
  split at h
  case isFalse => cases h
  case isTrue hcs => exact ⟨hcs.1, fun c hc => eq_digitChar_of_isDecimal (List.all_eq_true.1 hcs.2 c hc)⟩

/-! ### Tokens -/

theorem paddedChars_not_blank {zeros n : Nat} : ∀ c ∈ paddedChars zeros n, isBlank c = false := by
  rw [paddedChars_eq, List.forall_mem_map]
  exact fun d hd => (digitChar_ne (paddedDigits_lt hd)).1

theorem intOfChars_minus (cs : List Char) : intOfChars ('-' :: cs) = (natOfChars cs).map fun n : Nat => -(n : Int) := rfl

theorem intOfChars_plus (cs : List Char) : intOfChars ('+' :: cs) = (natOfChars cs).map fun n : Nat => (n : Int) := rfl

theorem intOfChars_unsigned {c : Char} (hm : c ≠ '-') (hp : c ≠ '+') (cs : List Char) :
    intOfChars (c :: cs) = (natOfChars (c :: cs)).map fun n : Nat => (n : Int) := by
  rw [intOfChars, if_neg hm, if_neg hp]

theorem intOfChars_padded {zeros n : Nat} (h : 0 < n ∨ 0 < zeros) : intOfChars (paddedChars zeros n) = some (n : Int) := by
  have hnat := natOfChars_padded h
  rw [paddedChars_eq] at hnat ⊢
  obtain ⟨d, ds, hds⟩ := List.exists_cons_of_ne_nil (paddedDigits_ne_nil h)
  have hd : d < 10 := paddedDigits_lt (by rw [hds]; exact List.mem_cons_self)
  obtain ⟨-, hminus, hplus⟩ := digitChar_ne hd
  rw [hds, List.map_cons] at hnat ⊢
  rw [intOfChars_unsigned hminus hplus, hnat]
  rfl

theorem wordOfInt_of_range {n : Int} (h : -(2 ^ 63) ≤ n ∧ n < 2 ^ 63) : wordOfInt n = some (BitVec.ofInt 64 n) :=
  if_pos h

theorem wordOfInt_of_not_range {n : Int} (h : ¬ (-(2 ^ 63) ≤ n ∧ n < 2 ^ 63)) : wordOfInt n = none :=
  if_neg h

theorem wordOfInt_toInt (w : Word) : wordOfInt w.toInt = some w := by
  rw [wordOfInt_of_range ⟨BitVec.le_toInt w, BitVec.toInt_lt⟩, BitVec.ofInt_toInt]

/-- A token without white space inside is read as the word of its number, whatever white space stands around it. -/
theorem wordOfToken_append {l cs r : List Char} {n : Int} (hl : l.all isBlank = true) (hr : r.all isBlank = true)
    (hcs : ∀ c ∈ cs, isBlank c = false) (hn : intOfChars cs = some n) : wordOfToken (l ++ cs ++ r) = wordOfInt n := by
  have hne : cs ≠ [] := by rintro rfl; cases hn
  rw [wordOfToken, trim_append hl hr hcs hne, hn, Option.bind_some]

/-- A number is read from its digits behind at most one sign. -/
theorem intOfChars_some {cs : List Char} {n : Int} (h : intOfChars cs = some n) :
    ∃ sign digits, cs = sign ++ digits ∧ (sign = [] ∨ sign = ['+'] ∨ sign = ['-']) ∧ digits ≠ [] ∧
      ∀ c ∈ digits, ∃ d < 10, c = digitChar d := by
  cases cs with
  | nil => cases h
  | cons c cs =>
    by_cases hm : c = '-'
    · subst hm
      obtain ⟨k, hk, -⟩ := Option.map_eq_some_iff.1 h
      exact ⟨['-'], cs, rfl, .inr (.inr rfl), natOfChars_some hk⟩
    · by_cases hp : c = '+'
      · subst hp
        obtain ⟨k, hk, -⟩ := Option.map_eq_some_iff.1 h
        exact ⟨['+'], cs, rfl, .inr (.inl rfl), natOfChars_some hk⟩
      · rw [intOfChars_unsigned hm hp] at h
        obtain ⟨k, hk, -⟩ := Option.map_eq_some_iff.1 h
        exact ⟨[], c :: cs, rfl, .inl rfl, natOfChars_some hk⟩

/-! ### Assembly -/

/-- The modes that the assembly can write (30_encoding.md R64). -/
abbrev Written (p : Param) : Prop := p.mode = .position ∨ p.mode = .immediate

theorem asmOperand_digit {p : Param} (h : Written p) : (asmOperand p).digit = p.mode.digit := by
  obtain h | h := h <;> simp [asmOperand, h, AsmOperand.digit, Mode.digit]

theorem asmOperand_word (labels : List (List Char × Nat)) (p : Param) :
    (asmOperand p).value.word labels = some p.word := by
  have hvalue : (asmOperand p).value = .number p.word.toInt := by
    unfold asmOperand
    split <;> rfl
  rw [hvalue, AsmValue.word, wordOfInt_toInt]

theorem asmDigits_map {ps : List Param} (h : ∀ p ∈ ps, Written p) : asmDigits (ps.map asmOperand) = modeDigits ps := by
  induction ps with
  | nil => rfl
  | cons p ps ih =>
    obtain ⟨hp, hps⟩ := List.forall_mem_cons.1 h
    rw [List.map_cons, asmDigits, modeDigits, asmOperand_digit hp, ih hps]

theorem mapM_asmOperand_word (labels : List (List Char × Nat)) (ps : List Param) :
    (ps.map asmOperand).mapM (fun o : AsmOperand => o.value.word labels) = some (ps.map Param.word) := by
  induction ps with
  | nil => rfl
  | cons p ps ih => simp [List.mapM_cons, asmOperand_word, ih]

theorem asmOperandsOk_params {i : Instr} (h : ∀ p ∈ i.params, Written p)
    (hdst : ∀ k, opcodeDst i.opcode = some k → (i.params[k]?.map Param.mode) = some .position) :
    asmOperandsOk i.opcode (i.params.map asmOperand) = true := by
  rw [asmOperandsOk, Bool.and_eq_true, decide_eq_true_eq, List.length_map]
  refine ⟨i.params_length, ?_⟩
  split
  · rfl
  · rename_i k hk
    obtain ⟨p, hp, hmode⟩ := Option.map_eq_some_iff.1 (hdst k hk)
    have hdigit := asmOperand_digit (h p (List.mem_of_getElem? hp))
    rw [hmode] at hdigit
    simp [hp, hdigit, Mode.digit]

theorem emit_instr {i : Instr} (labels : List (List Char × Nat)) (h : ∀ p ∈ i.params, Written p)
    (hdst : ∀ k, opcodeDst i.opcode = some k → (i.params[k]?.map Param.mode) = some .position) :
    AsmItem.emit labels (.instr i.opcode (i.params.map asmOperand)) = some (encode i) := by
  rw [AsmItem.emit, if_pos (asmOperandsOk_params h hdst), mapM_asmOperand_word, asmDigits_map h]
  rfl

theorem assemble_singleton {item : AsmItem} {ws : List Word} (h : item.emit (labelTable 0 [item]) = some ws) :
    assemble [item] = some ws := by
  simp [assemble, h]

end Sys2Proof.Machine

open Sys2Proof Sys2Proof.Machine

/-- Settles O57, by evaluating the codes. -/
theorem stateAndFaultCodes : Obligations.StateAndFaultCodes := by
  unfold Obligations.StateAndFaultCodes
  decide

/-- Settles O58: a split at a comma is a split of both sides, and each token is read by itself. -/
theorem programTextSplitsAtCommas : Obligations.ProgramTextSplitsAtCommas := by
  refine ⟨fun a b => ?_, fun text h => ?_⟩
  · simp only [imageOfText, splitAtChar_append, List.filterMap_append]
  · rw [imageOfText, splitAtChar_of_not_mem h]
    cases hw : wordOfToken text <;> simp [hw]

/-- Settles O59: the digits of a number fold back to it, and what is read has been trimmed to a sign and digits. -/
theorem decimalTokensAreRead : Obligations.DecimalTokensAreRead := by
  refine ⟨fun n zeros l r hne hl hr => ?_, fun cs w h => ?_⟩
  · have signed : ∀ {c}, isBlank c = false → ∀ x ∈ c :: paddedChars zeros n, isBlank x = false :=
      fun hc => List.forall_mem_cons.2 ⟨hc, paddedChars_not_blank⟩
    have hbare := wordOfToken_append hl hr paddedChars_not_blank (intOfChars_padded hne)
    have hplus := wordOfToken_append hl hr (signed (c := '+') rfl)
      ((intOfChars_plus _).trans (by rw [natOfChars_padded hne, Option.map_some]))
    have hminus := wordOfToken_append hl hr (signed (c := '-') rfl)
      ((intOfChars_minus _).trans (by rw [natOfChars_padded hne, Option.map_some]))
    rw [hbare, hplus, hminus]
    refine ⟨fun h => ?_, fun h => ?_, fun h => ?_, fun h => ?_⟩
    · rw [wordOfInt_of_range (by omega)]
      exact ⟨rfl, rfl⟩
    · rw [wordOfInt_of_not_range (by omega)]
      exact ⟨rfl, rfl⟩
    · exact wordOfInt_of_range (by omega)
    · exact wordOfInt_of_not_range (by omega)
  · obtain ⟨n, hn, -⟩ := Option.bind_eq_some_iff.1 h
    obtain ⟨l, r, hcs, hl, hr⟩ := trim_spec cs
    obtain ⟨sign, digits, htrim, hsign, hdigits⟩ := intOfChars_some hn
    exact ⟨l, sign, digits, r, by rw [List.append_assoc l, ← htrim]; exact hcs, hl, hr, hsign, hdigits⟩

/-- Settles O60: the one item emits the encoder's head, digit by digit, and its parameter words. -/
theorem assemblerMatchesEncoder : Obligations.AssemblerMatchesEncoder :=
  fun _ h hdst => assemble_singleton (emit_instr _ h hdst)
end
